-- ==== Sys2Proof/Word.lean ====
section
/-!
DEFINITION. The word types of the block: one abbreviation per port width
(spec/00_scope.md R7, R8; spec/10_state.md R27, R28).
-/

namespace Sys2Proof

/-- An encoded value: 11 bits, sign at bit 10, exponent at bits 9:6, fraction at bits 5:0 (R29, R50). -/
abbrev Enc := BitVec 11

/-- A whole or fraction accumulator, an integer mantissa, a struct's whole or fraction part: `W` = 32 (R8, D2, D4). -/
abbrev Acc := BitVec 32

/-- An exponent port: `EXP_W` = 8 bits, two's complement (R31, D3). -/
abbrev ExpPort := BitVec 8

/-- The operation select: `OP_W` = 4 bits (R55, D5). -/
abbrev OpCode := BitVec 4

/-- A one-bit port. -/
abbrev Bit := BitVec 1

end Sys2Proof
end

