-- ==== Sys2Proof/Syntax.lean ====
section
/-!
DEFINITION. The instruction set: one constructor per row of spec/opcode_table.json. The operation code
is the whole of the encoding and operands travel on their own ports (spec/30_encoding.md R55, R57, R60),
so no constructor has an argument.
-/

namespace Sys2Proof

/-- The sixteen rows of the operation code table (R57, R58). -/
inductive Instr where
  /-- 0x0 `CLASS` (R70). -/
  | classify
  /-- 0x1 `UNPACK` (R85). -/
  | unpack
  /-- 0x2 `ALIGN` (R87). -/
  | align
  /-- 0x3 `REASM` (R100). -/
  | reasm
  /-- 0x4 `NEG` (R140). -/
  | neg
  /-- 0x5 `ADD` (R150). -/
  | add
  /-- 0x6 `SUB` (R161). -/
  | sub
  /-- 0x7 `MUL` (R141). -/
  | mul
  /-- 0x8 `N2F` (R120). -/
  | n2f
  /-- 0x9 `F2N` (R130). -/
  | f2n
  /-- 0xA, reserved (R58). -/
  | reservedA
  /-- 0xB, reserved (R58). -/
  | reservedB
  /-- 0xC, reserved (R58). -/
  | reservedC
  /-- 0xD, reserved (R58). -/
  | reservedD
  /-- 0xE, reserved (R58). -/
  | reservedE
  /-- 0xF, reserved (R58). -/
  | reservedF
  deriving DecidableEq, Repr

end Sys2Proof
end

