-- ==== Sys2Proof/Decode.lean ====
section
/-!
DEFINITION. Decoding of the 4-bit operation select (spec/30_encoding.md R55, R57), total on every input
and rejecting by name what is no `OP4` code, and the encoder, written from the same table.
-/

namespace Sys2Proof

/-- One row of the operation code table of R57. -/
structure OpRow where
  code  : OpCode
  instr : Instr
  deriving DecidableEq, Repr

/-- R57: operation codes 0x0 to 0x7. -/
def opRowsLow : List OpRow :=
  [⟨0x0#4, .classify⟩, ⟨0x1#4, .unpack⟩, ⟨0x2#4, .align⟩, ⟨0x3#4, .reasm⟩,
   ⟨0x4#4, .neg⟩, ⟨0x5#4, .add⟩, ⟨0x6#4, .sub⟩, ⟨0x7#4, .mul⟩]

/-- R57, R58: operation codes 0x8 and 0x9, and the six reserved codes. -/
def opRowsHigh : List OpRow :=
  [⟨0x8#4, .n2f⟩, ⟨0x9#4, .f2n⟩, ⟨0xA#4, .reservedA⟩, ⟨0xB#4, .reservedB⟩,
   ⟨0xC#4, .reservedC⟩, ⟨0xD#4, .reservedD⟩, ⟨0xE#4, .reservedE⟩, ⟨0xF#4, .reservedF⟩]

/-- The operation code table (R57). Every code has exactly one row: `Laws.opTable_codes_complete`. -/
def opTable : List OpRow := opRowsLow ++ opRowsHigh

/-- The instruction the `op` port selects (R55, R57): total, since the port has four wires and the table
a row for each code. The last `none` case is never taken (`Laws.opTable_find_isSome`). -/
def decodeOp (op : OpCode) : Instr :=
  match opTable.find? (fun row => row.code == op) with
  | some row => row.instr
  | none => .reservedF

/-- Why a word or a byte list is no operation code. -/
inductive DecodeReject where
  /-- There are no bytes at all. -/
  | empty
  /-- A bit above bit 3 is set: the format `OP4` has four bits and "no prefix" (R55). -/
  | bitsAboveOp4 (w : Nat)
  /-- More than one byte: "There is one length (4 bits)" (R55). -/
  | tooLong (bytes : Nat)
  deriving DecidableEq, Repr

/-- Decoding of a number that holds the operation code in bits 3:0. -/
def decodeWord (w : Nat) : Except DecodeReject Instr :=
  if w < 16 then .ok (decodeOp (BitVec.ofNat 4 w)) else .error (.bitsAboveOp4 w)

/-- Decoding of any list of bytes: one byte that holds the code in its low four bits. The block itself has
no byte order and never sees bytes (spec/20_memory.md R41). -/
def decodeBytes : List (BitVec 8) → Except DecodeReject Instr
  | [] => .error .empty
  | [b] => decodeWord b.toNat
  | bs => .error (.tooLong bs.length)

/-- The operation code of an instruction (R57). -/
def encode : Instr → OpCode
  | .classify => 0x0#4
  | .unpack => 0x1#4
  | .align => 0x2#4
  | .reasm => 0x3#4
  | .neg => 0x4#4
  | .add => 0x5#4
  | .sub => 0x6#4
  | .mul => 0x7#4
  | .n2f => 0x8#4
  | .f2n => 0x9#4
  | .reservedA => 0xA#4
  | .reservedB => 0xB#4
  | .reservedC => 0xC#4
  | .reservedD => 0xD#4
  | .reservedE => 0xE#4
  | .reservedF => 0xF#4

/-- What the decoder reads from a row of spec/opcode_table.json whose bits are `w`, bit 0 the least
significant bit, `nbits` of them given and every higher bit 0. -/
def decodeTableWord (nbits w : Nat) : Option Instr :=
  match decodeWord (w % 2 ^ nbits) with
  | .ok i => some i
  | .error _ => none

end Sys2Proof
end

