-- ==== Sys2Proof/Config.lean ====
section
/-!
DEFINITION. The parameters of an instance: the constants the source fixes (spec/00_scope.md R7) and the
one parameter it leaves open, `CANON_NAN` (R8, spec/92_eei_decisions.md D8, spec/93_implementation_defined.md U1).
-/

namespace Sys2Proof.Config

/-- `BIAS` (R7). -/
def bias : Int := 7

/-- `DENORM_EXP`, the unbiased exponent of a denormal (R7). -/
def denormExp : Int := -6

/-- `EXP_SPECIAL`, the exponent field of Infinity and NaN (R7). -/
def expSpecial : BitVec 4 := 0xF#4

/-- `POS_INF` (R7, R52). -/
def posInf : Enc := 0x3C0#11

/-- `NEG_INF` (R7, R52). -/
def negInf : Enc := 0x7C0#11

/-- `POS_ZERO` (R7, R52). -/
def posZero : Enc := 0x000#11

/-- `NEG_ZERO` (R7, R52). -/
def negZero : Enc := 0x400#11

/-- `WHOLE_OVF`: a whole part of at least this much overflows to Infinity (R7, R123). -/
def wholeOvf : Acc := 256#32

/-- FREE VALUE: the sign bit of `CANON_NAN`. The source never prints it (N1, D8); log entry 5. -/
opaque canonNanSign : Bit

/-- FREE VALUE: the fraction field of `CANON_NAN` less one, so that the fraction ranges over exactly
1..63, the one constraint D8 puts on it; log entry 5. -/
opaque canonNanFrac : Fin 63

/-- `CANON_NAN` (R8, D8): an 11-bit constant with bits 9:6 = 15 and bits 5:0 ≠ 0, otherwise free. Each
of the 126 NaN patterns is the value for exactly one choice of the two free values. -/
def canonNan : Enc :=
  (canonNanSign.setWidth 11 <<< 10) ||| posInf ||| BitVec.ofNat 11 (canonNanFrac.val + 1)

end Sys2Proof.Config
end

