-- ==== Sys2Proof/Machine/State.lean ====
section
/-!
DEFINITION. The state: the ports of the block (spec/10_state.md R27, R28). The block holds nothing between
transactions (R20 to R25), so a state is what the host presents on the input ports and what the last
completed transaction delivered on the output ports. Fault, Refusal and the state after reset stand here too.
-/

namespace Sys2Proof.Machine

/-- An output port of `n` bits after a transaction. `undriven` is the port the operation does not name: it is
unspecified (R28, R32, U3) and the model gives it no value; read it as any value (`Port.mayShow`). -/
inductive Port (n : Nat) where
  | undriven
  | driven (v : BitVec n)
  deriving DecidableEq, Repr

/-- The input ports (R27), under the spec's own names. -/
structure InPorts where
  op          : OpCode
  a           : Enc
  b           : Enc
  mant        : Acc
  exp         : ExpPort
  sgn         : Bit
  num_present : Bit
  num_neg     : Bit
  num_inf     : Bit
  num_nan     : Bit
  num_whole   : Acc
  num_frac    : Acc
  deriving DecidableEq, Repr

/-- The output ports (R28), under the spec's own names. -/
structure OutPorts where
  r          : Port 11
  is_nan     : Port 1
  is_inf     : Port 1
  is_denorm  : Port 1
  is_neg     : Port 1
  is_zero    : Port 1
  u_sign     : Port 1
  u_whole    : Port 32
  u_frac     : Port 32
  u_exp      : Port 8
  m1         : Port 32
  m2         : Port 32
  e_sh       : Port 8
  o_neg      : Port 1
  o_inf      : Port 1
  o_nan      : Port 1
  o_whole    : Port 32
  o_frac     : Port 32
  we_neg     : Port 1
  we_inf     : Port 1
  we_nan     : Port 1
  we_whole   : Port 1
  we_frac    : Port 1
  err        : Port 1
  op_illegal : Port 1
  deriving DecidableEq, Repr

/-- The state: the input ports as the host presents them and the output ports as the last completed
transaction left them (R190: "the outputs are taken once it is complete"); log entry 1. -/
structure State where
  inp : InPorts
  out : OutPorts
  deriving DecidableEq, Repr

/-- Why the machine stops with a fault: never. "The treatments `fault` and `stuck` are used nowhere: the
block has no fault (its one error is an ordinary output)" (spec/93_implementation_defined.md; R171, R176); log entry 14. -/
inductive Fault where
  deriving DecidableEq, Repr

/-- Why a step has no meaning. -/
inductive Refusal where
  /-- Raised by an arm of `exec` that has no meaning yet. No arm raises it. Safe. -/
  | notModelled (mnemonic : String)
  /-- Raised by the six reserved operation codes: "The block drives `op_illegal <- 1`; every other output is
  unspecified. A model refuses such a transaction (it has no meaning)" (R58; R173, U2). Carries the code and
  the one output the block defines, the value of `op_illegal`. Safe: it errs toward unprovable. -/
  | reservedOp (op : OpCode) (op_illegal : Bit)
  deriving DecidableEq, Repr

/-- The input ports before the host has presented anything. The spec gives them no reset value (R33, R185):
all zero is a DESIGN CHOICE, unsafe, log entry 2. -/
def InPorts.zero : InPorts :=
  { op := 0, a := 0, b := 0, mant := 0, exp := 0, sgn := 0, num_present := 0, num_neg := 0, num_inf := 0,
    num_nan := 0, num_whole := 0, num_frac := 0 }

/-- No port driven: no transaction has delivered anything (R32, R185 "not held"); log entries 3 and 4. -/
def OutPorts.idle : OutPorts :=
  { r := .undriven, is_nan := .undriven, is_inf := .undriven, is_denorm := .undriven, is_neg := .undriven,
    is_zero := .undriven, u_sign := .undriven, u_whole := .undriven, u_frac := .undriven,
    u_exp := .undriven, m1 := .undriven, m2 := .undriven, e_sh := .undriven, o_neg := .undriven,
    o_inf := .undriven, o_nan := .undriven, o_whole := .undriven, o_frac := .undriven,
    we_neg := .undriven, we_inf := .undriven, we_nan := .undriven, we_whole := .undriven,
    we_frac := .undriven, err := .undriven, op_illegal := .undriven }

/-- The state right after reset: "reset has nothing to set" (R185, R33). -/
def State.reset : State := { inp := .zero, out := .idle }

end Sys2Proof.Machine
end

