-- ==== Sys2Proof/Machine/Ops.lean ====
section
/-!
DEFINITION. The shared operations: fields of an encoded value, the split number and its two one-bit shifts,
bounded loops, and the completion or refusal of a transaction. The block has no memory and takes no exception
(spec/20_memory.md R40; spec/60_exceptions.md R171, R176, R177), so there is no memory operation, no exception
entry and no return here.
-/

namespace Sys2Proof.Machine

/-! ## Ports -/

/-- The values an output port may show: a driven port its value, an undriven port any value at all (R32, U3
"any value": a claim about the port holds only if it holds for every one of these). -/
def Port.mayShow {n : Nat} (p : Port n) (v : BitVec n) : Bool :=
  match p with
  | .undriven => true
  | .driven u => u == v

/-- Whether the transaction drove the port. -/
def Port.isDriven {n : Nat} (p : Port n) : Bool :=
  match p with
  | .undriven => false
  | .driven _ => true

/-- A truth value on a one-bit port. -/
def bit (c : Bool) : Bit := BitVec.ofBool c

/-! ## Fields of an encoded value (R50) -/

/-- `v[10]`. -/
def signField (v : Enc) : Bit := v.extractLsb' 10 1

/-- `v[9:6]`. -/
def expField (v : Enc) : BitVec 4 := v.extractLsb' 6 4

/-- `v[5:0]`. -/
def fracField (v : Enc) : BitVec 6 := v.extractLsb' 0 6

/-- `v = (sign << 10) | (exponent << 6) | fraction` (R50, R105, R127). -/
def compose (sign : Bit) (exponent : BitVec 4) (fraction : BitVec 6) : Enc :=
  (sign.setWidth 11 <<< 10) ||| (exponent.setWidth 11 <<< 6) ||| fraction.setWidth 11

/-- `(s << 10) | 0x3C0`: the Infinity of sign `s` (R52, R103, R123). -/
def signedInf (s : Bit) : Enc := (s.setWidth 11 <<< 10) ||| Config.posInf

/-- `s << 10`: the zero of sign `s` (R101, R124). -/
def signedZero (s : Bit) : Enc := s.setWidth 11 <<< 10

/-! ## The split number (R80 to R83) -/

/-- A split number: whole accumulator, fraction accumulator, exact integer exponent. It stands for the
magnitude `(w + f / 2^32) × 2^e` (R80, R31). -/
structure Split where
  w : Acc
  f : Acc
  e : Int
  deriving DecidableEq, Repr

/-- `SHR1` (R81): bit 0 of `w` becomes bit 31 of `f`, bit 0 of `f` is dropped, the exponent goes up. -/
def shr1 (x : Split) : Split :=
  { w := x.w >>> 1
    f := (x.f >>> 1) ||| ((x.w &&& 1#32) <<< 31)
    e := x.e + 1 }

/-- `SHL1` (R82): bit 31 of `f` becomes bit 0 of `w`, bit 31 of `w` is dropped, the exponent goes down. -/
def shl1 (x : Split) : Split :=
  { w := (x.w <<< 1) ||| (x.f >>> 31)
    f := x.f <<< 1
    e := x.e - 1 }

/-- `f[W-1 : W-6]`: the six top bits of the fraction accumulator (R105, R127). -/
def topFrac (x : Split) : BitVec 6 := x.f.extractLsb' 26 6

/-- `while c: f`, with the bound the spec states for the loop as fuel (R193: "Every loop has a fixed bound").
That a loop ends by its condition and not by its fuel is stated in the obligations; log entry 11. -/
def whileLoop {α : Type} (fuel : Nat) (c : α → Bool) (f : α → α) (x : α) : α :=
  match fuel with
  | 0 => x
  | n + 1 => if c x then whileLoop n c f (f x) else x

/-- `u_8(e)`: an exponent on its port (R11, R85, R87). -/
def expPort (e : Int) : ExpPort := BitVec.ofInt 8 e

/-! ## The end of a transaction -/

/-- The transaction completes: its own outputs and `op_illegal = 0` (R57). Every port it does not name is
left undriven, the inputs are the host's and stay. -/
def complete (s : State) (o : OutPorts) : Host.Outcome State Fault Refusal :=
  .next { s with out := { o with op_illegal := .driven 0#1 } }

/-- The outputs of an operation whose one result is `r` (R28). -/
def outResult (v : Enc) : OutPorts := { OutPorts.idle with r := .driven v }

/-- A reserved operation code: `op_illegal = 1`, nothing else defined, the transaction refused (R58). -/
def refuseReserved (op : OpCode) : Host.Outcome State Fault Refusal :=
  .refused (.reservedOp op 1#1)

end Sys2Proof.Machine
end

