-- ==== Sys2Proof/Machine/Flags.lean ====
section
/-!
DEFINITION. The five format predicates (spec/40_predicates.md R71 to R75) and their output ports. The block
stores no flag (spec/10_state.md R22): these are combinational functions of an encoded value.
-/

namespace Sys2Proof.Machine

/-- R71: "exponent field == 0xF and fraction field > 0". -/
def isNaN (v : Enc) : Bool := expField v == Config.expSpecial && fracField v != 0#6

/-- R72: "v equals the canonical positive- or negative-Infinity bit pattern exactly" (C5). -/
def isInfinity (v : Enc) : Bool := v == Config.posInf || v == Config.negInf

/-- R73: "exponent field == 0"; true of the two zeros. -/
def isDenormalized (v : Enc) : Bool := expField v == 0#4

/-- R74: "sign bit set". -/
def isNegative (v : Enc) : Bool := signField v == 1#1

/-- R75: "exponent and fraction fields both zero (sign irrelevant)". -/
def isZero (v : Enc) : Bool := expField v == 0#4 && fracField v == 0#6

/-- The five `is_` outputs driven from `v`, beside the outputs `o` (R70, R85). -/
def withFlags (o : OutPorts) (v : Enc) : OutPorts :=
  { o with
    is_nan := .driven (bit (isNaN v))
    is_inf := .driven (bit (isInfinity v))
    is_denorm := .driven (bit (isDenormalized v))
    is_neg := .driven (bit (isNegative v))
    is_zero := .driven (bit (isZero v)) }

end Sys2Proof.Machine
end

