-- ==== Sys2Proof/Machine/Operands.lean ====
section
/-!
DEFINITION. Operand forms. Operands are whole ports (spec/30_encoding.md R60); what is assembled from bit
fields is the split number of an encoded operand (spec/41_bridge_align.md R84, R86) and the sign-extended
`exp` port (R60, R100).
-/

namespace Sys2Proof.Machine

/-- The unbiased exponent: -6 for a denormal, `v[9:6] - 7` otherwise (R84); exponent field 15 takes the
"otherwise" branch (R86, D13). -/
def unbiasedExp (v : Enc) : Int :=
  if expField v == 0#4 then Config.denormExp else (expField v).toNat - Config.bias

/-- The implicit leading bit: 0 for exponent field 0, 1 otherwise (R84, R86). -/
def leadBit (v : Enc) : Nat := if expField v == 0#4 then 0 else 1

/-- `Extract(v)` (R84): the sign is not part of the split number. -/
def extract (v : Enc) : Split :=
  { w := BitVec.ofNat 32 (leadBit v)
    f := (fracField v).setWidth 32 <<< 26
    e := unbiasedExp v }

/-- `sext(in.exp)` (R100): the exponent port as an exact integer. -/
def sextExp (x : ExpPort) : Int := x.toInt

/-- The significand `S = lead×64 + v[5:0]` (R12, R91). -/
def significand (v : Enc) : Nat := leadBit v * 64 + (fracField v).toNat

/-- `v` is finite: `v[9:6] ≠ 15` (R76). -/
def isFinite (v : Enc) : Bool := expField v != Config.expSpecial

end Sys2Proof.Machine
end

