-- ==== Sys2Proof/Machine/Bridge.lean ====
section
/-!
DEFINITION. The Decimal Bridge: `UNPACK` and `ALIGN` (spec/41_bridge_align.md R84 to R96) and `REASM`
(spec/42_bridge_reassemble.md R100 to R112), each as the loop form of its rule.
-/

namespace Sys2Proof.Machine

/-! ## UNPACK -/

/-- The outputs of `UNPACK` (R85): the split number, the sign apart, and the five predicates beside it. -/
def unpackOut (v : Enc) : OutPorts :=
  withFlags
    { OutPorts.idle with
      u_sign := .driven (signField v)
      u_whole := .driven (extract v).w
      u_frac := .driven (extract v).f
      u_exp := .driven (expPort (extract v).e) } v

/-- `UNPACK a` (R85), on specials too (R86). -/
def execUnpack (s : State) : Host.Outcome State Fault Refusal :=
  complete s (unpackOut s.inp.a)

/-! ## ALIGN -/

/-- Phase 1 (R87, R88): while the exponents differ, the operand with the smaller one is shifted right; the other
is untouched. At most 14 shifts (R95; C1). -/
def equalizeExponents (p : Split × Split) : Split × Split :=
  let q := whileLoop 14 (fun q => decide (q.1.e < q.2.e)) (fun q => (shr1 q.1, q.2)) p
  whileLoop 14 (fun q => decide (q.2.e < q.1.e)) (fun q => (q.1, shr1 q.2)) q

/-- Phase 2 (R87, R89): both operands are shifted left in lock-step until both fractions are zero. At most
32 shifts (R95). -/
def clearFractions (p : Split × Split) : Split × Split :=
  whileLoop 32 (fun q => q.1.f != 0#32 || q.2.f != 0#32) (fun q => (shl1 q.1, shl1 q.2)) p

/-- The two integer mantissas and the shared exponent (R90). -/
structure Aligned where
  m1 : Acc
  m2 : Acc
  e  : Int
  deriving DecidableEq, Repr

/-- `Align(a, b)` (R87). -/
def alignPair (a b : Enc) : Aligned :=
  let p := clearFractions (equalizeExponents (extract a, extract b))
  { m1 := p.1.w, m2 := p.2.w, e := p.1.e }

/-- `ALIGN a, b` (R87), on zeros and specials too (R92, R93). -/
def execAlign (s : State) : Host.Outcome State Fault Refusal :=
  let t := alignPair s.inp.a s.inp.b
  complete s { OutPorts.idle with m1 := .driven t.m1, m2 := .driven t.m2, e_sh := .driven (expPort t.e) }

/-! ## REASM -/

/-- `while w > 1: SHR1` (R102, R125): at most 31 shifts (R110). -/
def normalizeRight (x : Split) : Split :=
  whileLoop 31 (fun x => decide (1 < x.w.toNat)) shr1 x

/-- `while x != -6: SHR1` (R104): at most 122 shifts (R110). -/
def denormalizeRight (x : Split) : Split :=
  whileLoop 122 (fun x => x.e != Config.denormExp) shr1 x

/-- `Reassemble(mantissa, exponent, signBit)` (R100): zero (R101), normalize (R102), overflow (R103),
denormal restart (R104), compose (R105). -/
def reassemble (m0 : Acc) (x0 : Int) (s : Bit) : Enc :=
  if m0 == 0#32 then signedZero s
  else
    let x := normalizeRight { w := m0, f := 0#32, e := x0 }
    let be := x.e + Config.bias
    if 15 ≤ be then signedInf s
    else if be ≤ 0 then
      compose s 0#4 (topFrac (denormalizeRight { w := m0, f := 0#32, e := x0 }))
    else compose s (BitVec.ofInt 4 be) (topFrac x)

/-- `REASM mant, exp, sgn` (R100, R111): total. -/
def execReasm (s : State) : Host.Outcome State Fault Refusal :=
  complete s (outResult (reassemble s.inp.mant (sextExp s.inp.exp) s.inp.sgn))

end Sys2Proof.Machine
end

