-- ==== Sys2Proof/Machine/Arithmetic.lean ====
section
/-!
DEFINITION. `NEG`, `MUL`, `ADD`, `SUB` (spec/44_arithmetic.md R140 to R162): an ordered list of guard clauses,
then align, exact integer arithmetic, reassemble.
-/

namespace Sys2Proof.Machine

/-! ## NEG -/

/-- `Negate(v)` (R140): "flip the sign bit only; all other bits unchanged", NaN and Infinity included. -/
def negValue (v : Enc) : Enc := v ^^^ 0x400#11

/-- `NEG a` (R140). -/
def execNeg (s : State) : Host.Outcome State Fault Refusal :=
  complete s (outResult (negValue s.inp.a))

/-! ## MUL -/

/-- The general path of `MUL` (R143): the product of the mantissas at twice the shared exponent. The product is
the mathematical one and fits the accumulator (R147); log entry 15. -/
def mulGeneral (a b : Enc) : Enc :=
  let t := alignPair a b
  reassemble (BitVec.ofNat 32 (t.m1.toNat * t.m2.toNat)) (2 * t.e) (signField a ^^^ signField b)

/-- `Multiply(a, b)` (R141): guards M1 to M4 in the spec's order, then the general path. -/
def mulValue (a b : Enc) : Enc :=
  let s := signField a ^^^ signField b
  if isNaN a || isNaN b then Config.canonNan
  else if (isInfinity a && isZero b) || (isZero a && isInfinity b) then Config.canonNan
  else if isInfinity a || isInfinity b then signedInf s
  else if isZero a || isZero b then signedZero s
  else mulGeneral a b

/-- `MUL a, b` (R141). -/
def execMul (s : State) : Host.Outcome State Fault Refusal :=
  complete s (outResult (mulValue s.inp.a s.inp.b))

/-! ## ADD -/

/-- A mantissa "as signed using its original sign bit" (R152). -/
def signedMantissa (sign : Bit) (m : Acc) : Int :=
  if sign == 1#1 then -(m.toNat : Int) else (m.toNat : Int)

/-- The general path of `ADD` (R152): the exact signed sum, its sign and its absolute value. The sum is the
mathematical one and fits the accumulator (R160); log entry 15. -/
def addGeneral (a b : Enc) : Enc :=
  let t := alignPair a b
  let sum := signedMantissa (signField a) t.m1 + signedMantissa (signField b) t.m2
  reassemble (BitVec.ofNat 32 sum.natAbs) t.e (bit (decide (sum < 0)))

/-- `Add(a, b)` (R150): guards A1 to A8 in the spec's order (C2, C4), then the general path. -/
def addValue (a b : Enc) : Enc :=
  let sAnd := signField a &&& signField b
  if isInfinity a && isInfinity b && signField a != signField b then Config.canonNan
  else if isNaN a || isNaN b then Config.canonNan
  else if isInfinity a && isInfinity b then signedInf sAnd
  else if a == b ^^^ 0x400#11 then Config.posZero
  else if a == Config.posInf || b == Config.posInf then Config.posInf
  else if a == Config.negInf || b == Config.negInf then Config.negInf
  else if isZero a && isZero b then signedZero sAnd
  else if isZero a then b
  else if isZero b then a
  else addGeneral a b

/-- `ADD a, b` (R150). -/
def execAdd (s : State) : Host.Outcome State Fault Refusal :=
  complete s (outResult (addValue s.inp.a s.inp.b))

/-! ## SUB -/

/-- `Subtract(a, b) = Add(a, Negate(b))` (R161). -/
def subValue (a b : Enc) : Enc := addValue a (negValue b)

/-- `SUB a, b` (R161). -/
def execSub (s : State) : Host.Outcome State Fault Refusal :=
  complete s (outResult (subValue s.inp.a s.inp.b))

end Sys2Proof.Machine
end

