-- ==== Sys2Proof/Machine/Converters.lean ====
section
/-!
DEFINITION. `N2F` and `F2N` (spec/43_converters.md R120 to R138), each as the loop form of its rule. The struct
is a bundle of ports (spec/10_state.md R30).
-/

namespace Sys2Proof.Machine

/-! ## N2F -/

/-- `while w == 0: SHL1` (R125): at most 32 shifts. -/
def normalizeLeft (x : Split) : Split :=
  whileLoop 32 (fun x => x.w == 0#32) shl1 x

/-- `while x != -6: SHL1` (R126): six shifts, the exponent starting at 0. -/
def denormalizeLeft (x : Split) : Split :=
  whileLoop 6 (fun x => x.e != Config.denormExp) shl1 x

/-- The general path of `N2F` (R125 to R127): normalize until the whole part is exactly 1, right or left (C8),
restart into the denormal form when the biased exponent is not positive, compose. -/
def n2fGeneral (neg : Bit) (whole frac : Acc) : Enc :=
  let x := normalizeLeft (normalizeRight { w := whole, f := frac, e := 0 })
  let be := x.e + Config.bias
  if be ≤ 0 then compose neg 0#4 (topFrac (denormalizeLeft { w := whole, f := frac, e := 0 }))
  else compose neg (BitVec.ofInt 4 be) (topFrac x)

/-- `N2F` (R120): the guards of R121 to R124 in order, then the general path. An absent struct is no error
and its other ports are not read (R121). -/
def n2fValue (present neg inf nan : Bit) (whole frac : Acc) : Enc :=
  if present == 0#1 then Config.canonNan
  else if nan == 1#1 then Config.canonNan
  else if inf == 1#1 || decide (Config.wholeOvf.toNat ≤ whole.toNat) then signedInf neg
  else if whole == 0#32 && frac == 0#32 then signedZero neg
  else n2fGeneral neg whole frac

/-- `N2F` of the six `num_` ports (R120). -/
def execN2f (s : State) : Host.Outcome State Fault Refusal :=
  complete s (outResult
    (n2fValue s.inp.num_present s.inp.num_neg s.inp.num_inf s.inp.num_nan s.inp.num_whole s.inp.num_frac))

/-! ## F2N -/

/-- The shifts of the finite path of `F2N` (R135): left while the exponent is positive (at most 7), right while
it is negative (at most 6). -/
def shiftToUnits (x : Split) : Split :=
  whileLoop 6 (fun x => decide (x.e < 0)) shr1 (whileLoop 7 (fun x => decide (0 < x.e)) shl1 x)

/-- An absent struct (R131): `err = 1` and no write enabled. -/
def f2nAbsent : OutPorts :=
  { OutPorts.idle with
    we_neg := .driven 0#1, we_inf := .driven 0#1, we_nan := .driven 0#1, we_whole := .driven 0#1
    we_frac := .driven 0#1, err := .driven 1#1 }

/-- Success with the sign written and nothing else yet (R132); the three paths add their own writes. An `o_` port
whose enable is 0 stays undriven (R130). -/
def f2nSign (v : Enc) : OutPorts :=
  { OutPorts.idle with
    o_neg := .driven (signField v)
    we_neg := .driven 1#1, we_inf := .driven 0#1, we_nan := .driven 0#1, we_whole := .driven 0#1
    we_frac := .driven 0#1, err := .driven 0#1 }

/-- Infinity: only the sign and the Infinity flag are written (R133). -/
def f2nInf (v : Enc) : OutPorts :=
  { f2nSign v with o_inf := .driven 1#1, we_inf := .driven 1#1 }

/-- NaN: only the sign and the NaN flag are written (R134). -/
def f2nNan (v : Enc) : OutPorts :=
  { f2nSign v with o_nan := .driven 1#1, we_nan := .driven 1#1 }

/-- A finite value: sign, whole and fraction are written, the two flags are not touched (R135, R138). -/
def f2nFinite (v : Enc) : OutPorts :=
  { f2nSign v with
    o_whole := .driven (shiftToUnits (extract v)).w, we_whole := .driven 1#1
    o_frac := .driven (shiftToUnits (extract v)).f, we_frac := .driven 1#1 }

/-- The outputs of `F2N` (R130): the presence test comes first (R175; C3), then Infinity, NaN, finite. -/
def f2nOut (v : Enc) (present : Bit) : OutPorts :=
  if present == 0#1 then f2nAbsent
  else if isInfinity v then f2nInf v
  else if isNaN v then f2nNan v
  else f2nFinite v

/-- `F2N a, present` (R130). -/
def execF2n (s : State) : Host.Outcome State Fault Refusal :=
  complete s (f2nOut s.inp.a s.inp.num_present)

end Sys2Proof.Machine
end

