-- ==== Sys2Proof/Machine/Predicates.lean ====
section
/-!
DEFINITION. `CLASS` (spec/40_predicates.md R70).
-/

namespace Sys2Proof.Machine

/-- `CLASS a` (R70). -/
def execClassify (s : State) : Host.Outcome State Fault Refusal :=
  complete s (withFlags .idle s.inp.a)

end Sys2Proof.Machine
end

