-- ==== Sys2Proof/Machine/Reserved.lean ====
section
/-!
DEFINITION. The six reserved operation codes (spec/30_encoding.md R58; spec/60_exceptions.md R173): each
"selects no operation", drives `op_illegal = 1`, and is refused.
-/

namespace Sys2Proof.Machine

/-- 0xA (R58). -/
def execReservedA (_s : State) : Host.Outcome State Fault Refusal := refuseReserved 0xA#4

/-- 0xB (R58). -/
def execReservedB (_s : State) : Host.Outcome State Fault Refusal := refuseReserved 0xB#4

/-- 0xC (R58). -/
def execReservedC (_s : State) : Host.Outcome State Fault Refusal := refuseReserved 0xC#4

/-- 0xD (R58). -/
def execReservedD (_s : State) : Host.Outcome State Fault Refusal := refuseReserved 0xD#4

/-- 0xE (R58). -/
def execReservedE (_s : State) : Host.Outcome State Fault Refusal := refuseReserved 0xE#4

/-- 0xF (R58). -/
def execReservedF (_s : State) : Host.Outcome State Fault Refusal := refuseReserved 0xF#4

end Sys2Proof.Machine
end

