-- ==== Sys2Proof/Machine/Dispatch.lean ====
section
/-!
DEFINITION. One arm per constructor of Instr, each one direct call of its meaning.
-/

namespace Sys2Proof.Machine

-- The operation the code selects, evaluated on the ports (spec/30_encoding.md R56, R57).
def exec (i : Instr) (s : State) : Host.Outcome State Fault Refusal :=
  match i with
  | .classify => Sys2Proof.Machine.execClassify s
  | .unpack => Sys2Proof.Machine.execUnpack s
  | .align => Sys2Proof.Machine.execAlign s
  | .reasm => Sys2Proof.Machine.execReasm s
  | .neg => Sys2Proof.Machine.execNeg s
  | .add => Sys2Proof.Machine.execAdd s
  | .sub => Sys2Proof.Machine.execSub s
  | .mul => Sys2Proof.Machine.execMul s
  | .n2f => Sys2Proof.Machine.execN2f s
  | .f2n => Sys2Proof.Machine.execF2n s
  | .reservedA => Sys2Proof.Machine.execReservedA s
  | .reservedB => Sys2Proof.Machine.execReservedB s
  | .reservedC => Sys2Proof.Machine.execReservedC s
  | .reservedD => Sys2Proof.Machine.execReservedD s
  | .reservedE => Sys2Proof.Machine.execReservedE s
  | .reservedF => Sys2Proof.Machine.execReservedF s

end Sys2Proof.Machine
end

