-- ==== Sys2Proof/Machine/Step.lean ====
section
/-!
DEFINITION. One step is one transaction (spec/30_encoding.md R56): the operation the `op` port selects,
evaluated on the operand ports. There is no fetch, no program counter and no timing (spec/10_state.md R21;
spec/20_memory.md R47; spec/70_reset_and_hazards.md R194).
-/

namespace Sys2Proof.Machine

/-- One transaction. -/
def step (s : State) : Host.Outcome State Fault Refusal := exec (decodeOp s.inp.op) s

/-- The host presents the operation code `w` on the `op` port, which is where the next step takes its operation
from (R47: "takes effect in the transaction in which it is presented"). The port has four wires; no other port
changes. Log entry 13. -/
def State.withFetchWord (s : State) (nbits w : Nat) : State :=
  { s with inp := { s.inp with op := BitVec.ofNat 4 (w % 2 ^ nbits) } }

end Sys2Proof.Machine
end

