-- ==== Sys2Proof/Machine/Transactions.lean ====
section
/-!
DEFINITION. The host's side of a transaction (spec/30_encoding.md R56, R61, R62; spec/20_memory.md R43, R48;
spec/43_converters.md R129). `step` calls none of it: it is what the host does between two steps, as plain
definitions over State, so that sequences of transactions can be stated.
-/

namespace Sys2Proof.Machine

/-- A struct as the host writes it: `{present, neg, inf, nan, whole, frac}` (R30, R61). -/
structure NumStruct where
  present : Bit
  neg     : Bit
  inf     : Bit
  nan     : Bit
  whole   : Acc
  frac    : Acc
  deriving DecidableEq, Repr

/-- One transaction in the notation of R61: the mnemonic and its operands, in the order of R57. -/
inductive Transaction where
  | classify (a : Enc)
  | unpack (a : Enc)
  | align (a b : Enc)
  | reasm (mant : Acc) (exp : ExpPort) (sgn : Bit)
  | neg (a : Enc)
  | add (a b : Enc)
  | sub (a b : Enc)
  | mul (a b : Enc)
  | n2f (n : NumStruct)
  | f2n (a : Enc) (present : Bit)
  deriving DecidableEq, Repr

/-- The operation of a transaction (R57). -/
def Transaction.instr : Transaction → Instr
  | .classify _ => .classify
  | .unpack _ => .unpack
  | .align _ _ => .align
  | .reasm _ _ _ => .reasm
  | .neg _ => .neg
  | .add _ _ => .add
  | .sub _ _ => .sub
  | .mul _ _ => .mul
  | .n2f _ => .n2f
  | .f2n _ _ => .f2n

/-- The host presents the operands on the ports the operation reads (R56); the other ports keep what they
carried, since the operation ignores them (R27). -/
def presentOperands (t : Transaction) (p : InPorts) : InPorts :=
  match t with
  | .classify a => { p with a := a }
  | .unpack a => { p with a := a }
  | .align a b => { p with a := a, b := b }
  | .reasm mant exp sgn => { p with mant := mant, exp := exp, sgn := sgn }
  | .neg a => { p with a := a }
  | .add a b => { p with a := a, b := b }
  | .sub a b => { p with a := a, b := b }
  | .mul a b => { p with a := a, b := b }
  | .n2f n =>
    { p with
      num_present := n.present, num_neg := n.neg, num_inf := n.inf, num_nan := n.nan
      num_whole := n.whole, num_frac := n.frac }
  | .f2n a present => { p with a := a, num_present := present }

/-- The host presents `op` and the operands of `t` (R56). -/
def present (t : Transaction) (s : State) : State :=
  { s with inp := { presentOperands t s.inp with op := encode t.instr } }

/-- The host presents `t` and the block evaluates it (R56). -/
def transact (t : Transaction) (s : State) : Host.Outcome State Fault Refusal := step (present t s)

/-! ## Pseudo-operations (R62) -/

/-- The pseudo-operations of R62: "each is a transaction of a real operation plus a selection or a fixed
operand". -/
inductive Pseudo where
  | isnan (a : Enc)
  | isinf (a : Enc)
  | isdenorm (a : Enc)
  | isneg (a : Enc)
  | iszero (a : Enc)
  | align1 (a : Enc)
  deriving DecidableEq, Repr

/-- The expansion column of R62. -/
def expandPseudo : Pseudo → Transaction
  | .isnan a => .classify a
  | .isinf a => .classify a
  | .isdenorm a => .classify a
  | .isneg a => .classify a
  | .iszero a => .classify a
  | .align1 a => .align a a

/-- The output a predicate pseudo-operation takes (R62); `ALIGN1` takes the outputs of `ALIGN` whole. -/
def selectPseudo (p : Pseudo) (o : OutPorts) : Port 1 :=
  match p with
  | .isnan _ => o.is_nan
  | .isinf _ => o.is_inf
  | .isdenorm _ => o.is_denorm
  | .isneg _ => o.is_neg
  | .iszero _ => o.is_zero
  | .align1 _ => .undriven

/-! ## The struct between transactions (R43, R138) -/

/-- A struct field after `F2N`: written with the `o_` value when its enable is 1, kept when it is 0 (R28, R138). A
transaction that drives no enable writes nothing. -/
def writeField {n : Nat} (we : Port 1) (o : Port n) (old : BitVec n) : BitVec n :=
  match we, o with
  | .driven w, .driven v => if w == 1#1 then v else old
  | _, _ => old

/-- The host applies the enabled writes together (R43) to the struct it presents on the `num_` ports. -/
def commitStruct (s : State) : State :=
  { s with
    inp :=
      { s.inp with
        num_neg := writeField s.out.we_neg s.out.o_neg s.inp.num_neg
        num_inf := writeField s.out.we_inf s.out.o_inf s.inp.num_inf
        num_nan := writeField s.out.we_nan s.out.o_nan s.inp.num_nan
        num_whole := writeField s.out.we_whole s.out.o_whole s.inp.num_whole
        num_frac := writeField s.out.we_frac s.out.o_frac s.inp.num_frac } }

/-- The host clears the Infinity and NaN flags of a struct before reusing it (R186). -/
def clearStructFlags (s : State) : State :=
  { s with inp := { s.inp with num_inf := 0#1, num_nan := 0#1 } }

/-! ## The host's storage (R48, R129) -/

/-- An encoded value in a wider host word: bits 10:0, and zeros above, which the spec requires; a word with
a bit above bit 10 set is refused (R48, U8). -/
def encFromWord (w : Nat) : Option Enc := if w < 2048 then some (BitVec.ofNat 11 w) else none

/-- The host's flag in a wider field: "presents 1 for any non-zero value" (R129, D19). -/
def flagBit (n : Nat) : Bit := if n == 0 then 0#1 else 1#1

end Sys2Proof.Machine
end

