-- ==== Sys2Proof/Machine/Value.lean ====
section
/-!
DEFINITION. The real number an encoded value stands for (spec/00_scope.md R12): "a reading aid for derived
statements and test vectors". No meaning calls it.
-/

namespace Sys2Proof.Machine

/-- `val(v) = (-1)^v[10] × S × 2^(e-6)` (R12), meant only where `v[9:6] ≠ 15`. -/
def val (v : Enc) : ℚ :=
  (-1) ^ (signField v).toNat * (significand v : ℚ) * 2 ^ (unbiasedExp v - 6)

/-- The magnitude a split number stands for: `(w + f / 2^W) × 2^e` (R80). -/
def splitVal (x : Split) : ℚ := ((x.w.toNat : ℚ) + (x.f.toNat : ℚ) / 2 ^ 32) * 2 ^ x.e

/-- `tz(x)`: the number of trailing zero bits of the positive integer `x` (R11). -/
def tz (x : Nat) : Nat := padicValNat 2 x

/-- `ilog2(x)`: the position of the most significant set bit of the positive integer `x` (R11). -/
def ilog2 (x : Nat) : Nat := Nat.log2 x

/-- `L = e - 6`: the weight exponent of bit 0 of the significand (R91). -/
def unitExp (v : Enc) : Int := unbiasedExp v - 6

/-- `lsb = L + tz(S)`: the weight exponent of the lowest set bit of the value, for `S ≠ 0` (R91). -/
def lowestBitExp (v : Enc) : Int := unitExp v + tz (significand v)

/-- `E` of R91: the larger exponent of two zeros, otherwise the least `lsb` of the operands that are not zero. -/
def closedAlignExp (a b : Enc) : Int :=
  if significand a = 0 then
    if significand b = 0 then max (unbiasedExp a) (unbiasedExp b) else lowestBitExp b
  else if significand b = 0 then lowestBitExp a else min (lowestBitExp a) (lowestBitExp b)

end Sys2Proof.Machine
end

