-- ==== Sys2Proof/WellFormed.lean ====
section
/-!
DEFINITION. Well-formed instructions. An instruction has no fields, so the one check is that its
operation code selects an operation: "Reserved operation codes 0xA to 0xF select no operation"
(spec/30_encoding.md R58).
-/

namespace Sys2Proof

/-- The instruction selects an operation (R57, R58). -/
def Instr.wf : Instr → Bool
  | .classify => true
  | .unpack => true
  | .align => true
  | .reasm => true
  | .neg => true
  | .add => true
  | .sub => true
  | .mul => true
  | .n2f => true
  | .f2n => true
  | .reservedA => false
  | .reservedB => false
  | .reservedC => false
  | .reservedD => false
  | .reservedE => false
  | .reservedF => false

end Sys2Proof
end

