-- ==== Sys2Proof/Safety.lean ====
section
/-!
DEFINITION. What counts as a safe run, in the terms the statements use. The block has no fault and no trap
(spec/60_exceptions.md R171, R176), so a step is unsafe only when the `op` port carries a reserved code.
-/

namespace Sys2Proof.Machine

/-- The `op` port selects an operation (R57, R58). -/
def State.selectsOperation (s : State) : Bool := (decodeOp s.inp.op).wf

/-- The transaction completed: it delivered a next state. -/
def Completes (x : Host.Outcome State Fault Refusal) : Prop := ∃ t, x = .next t

/-- The state after a completed transaction with the outputs `o` and no other: the inputs are unchanged, every port
`o` leaves undriven is undriven, and `op_illegal` is 0 (R28, R57). -/
def delivered (s : State) (o : OutPorts) : State := { s with out := { o with op_illegal := .driven 0#1 } }

/-- The state after a completed transaction whose one result is `r = v`. -/
def deliveredResult (s : State) (v : Enc) : State := delivered s { OutPorts.idle with r := .driven v }

/-- The encoded result of a transaction, where it completes and drives `r`. -/
def resultOf (t : Transaction) (s : State) : Option Enc :=
  match transact t s with
  | .next u =>
    match u.out.r with
    | .driven v => some v
    | .undriven => none
  | .fault _ => none
  | .refused _ => none

/-- Two port bundles agree on the operand ports that operation `i` reads (R27, R57). -/
def agreeOnRead (i : Instr) (p q : InPorts) : Prop :=
  match i with
  | .classify => p.a = q.a
  | .unpack => p.a = q.a
  | .align => p.a = q.a ∧ p.b = q.b
  | .reasm => p.mant = q.mant ∧ p.exp = q.exp ∧ p.sgn = q.sgn
  | .neg => p.a = q.a
  | .add => p.a = q.a ∧ p.b = q.b
  | .sub => p.a = q.a ∧ p.b = q.b
  | .mul => p.a = q.a ∧ p.b = q.b
  | .n2f =>
    p.num_present = q.num_present ∧ p.num_neg = q.num_neg ∧ p.num_inf = q.num_inf ∧ p.num_nan = q.num_nan ∧
      p.num_whole = q.num_whole ∧ p.num_frac = q.num_frac
  | .f2n => p.a = q.a ∧ p.num_present = q.num_present
  | .reservedA => True
  | .reservedB => True
  | .reservedC => True
  | .reservedD => True
  | .reservedE => True
  | .reservedF => True

/-- `r` is the magnitude `x` truncated toward zero to a representable value, with the sign `s` (R107, R108): at 256
or more the Infinity of that sign; below, the finite value of the greatest magnitude not above `x`. -/
def TruncatesTo (x : ℚ) (s : Bit) (r : Enc) : Prop :=
  signField r = s ∧ (256 ≤ x → r = signedInf s) ∧
    (x < 256 → isFinite r = true ∧ |val r| ≤ x ∧ ∀ v, isFinite v = true → |val v| ≤ x → |val v| ≤ |val r|)

/-- A driven exponent port carries a signed integer in `lo..hi`; an undriven port carries nothing. -/
def expPortInRange (lo hi : Int) (p : Port 8) : Bool :=
  match p with
  | .undriven => true
  | .driven v => decide (lo ≤ v.toInt) && decide (v.toInt ≤ hi)

/-- An `o_` port of `F2N` carries a value exactly when its write enable is driven to 1 (R130). -/
def enableMatches {n : Nat} (we : Port 1) (o : Port n) : Bool := o.isDriven == (we == .driven 1#1)

/-- A NaN on `r` after operation `i` with first operand `a` (R53): after `NEG` it is that operand, itself a NaN, with
bit 10 flipped; after `REASM` there is none; after every other operation it is `CANON_NAN`. -/
def nanIsCanonical (i : Instr) (a : Enc) (r : Port 11) : Bool :=
  match r with
  | .undriven => true
  | .driven v =>
    !isNaN v ||
      (if i == .neg then isNaN a && v == a ^^^ 0x400#11 else i != .reasm && v == Config.canonNan)

/-- The output ports that operation `i` names (R28, R57): one row per operation, in the order of R28. -/
def drivesOnly (i : Instr) (o : OutPorts) : Bool :=
  let flags := i == .classify || i == .unpack
  let result := i == .reasm || i == .neg || i == .add || i == .sub || i == .mul || i == .n2f
  o.r.isDriven == result
    && o.is_nan.isDriven == flags && o.is_inf.isDriven == flags && o.is_denorm.isDriven == flags
    && o.is_neg.isDriven == flags && o.is_zero.isDriven == flags
    && o.u_sign.isDriven == (i == .unpack) && o.u_whole.isDriven == (i == .unpack)
    && o.u_frac.isDriven == (i == .unpack) && o.u_exp.isDriven == (i == .unpack)
    && o.m1.isDriven == (i == .align) && o.m2.isDriven == (i == .align) && o.e_sh.isDriven == (i == .align)
    && o.we_neg.isDriven == (i == .f2n) && o.we_inf.isDriven == (i == .f2n)
    && o.we_nan.isDriven == (i == .f2n) && o.we_whole.isDriven == (i == .f2n)
    && o.we_frac.isDriven == (i == .f2n) && o.err.isDriven == (i == .f2n)
    && enableMatches o.we_neg o.o_neg && enableMatches o.we_inf o.o_inf && enableMatches o.we_nan o.o_nan
    && enableMatches o.we_whole o.o_whole && enableMatches o.we_frac o.o_frac

/-- The outputs `o` are coherent as those of operation `i` on the input ports `p`: its own ports driven and no
other, a NaN only as R53 says, `u_exp` in -6..8 (R85), `e_sh` in -12..8 (R93, R94), and `op_illegal` low (R57). -/
def outCoherent (i : Instr) (p : InPorts) (o : OutPorts) : Bool :=
  drivesOnly i o && nanIsCanonical i p.a o.r && expPortInRange (-6) 8 o.u_exp && expPortInRange (-12) 8 o.e_sh
    && o.op_illegal == .driven 0#1

/-- The invariant of the port bundle: no output is driven (as right after reset), or the `op` port selects an
operation and the outputs are coherent as those of that operation on the input ports. -/
def State.coherent (s : State) : Prop :=
  s.out = .idle ∨ (s.selectsOperation = true ∧ outCoherent (decodeOp s.inp.op) s.inp s.out = true)

end Sys2Proof.Machine
end

