-- ==== Sys2Proof/Certificates/Slice0/Obligations.lean ====
section
/-!
DEFINITION. The statements for the provers, in the order of the spec's files. Each docstring names the rule it
formalises. `delivered` and `deliveredResult` (Safety.lean) are whole next states, so a statement that an
instruction answers one of them is also its frame: the inputs are unchanged and no other port is driven.
-/

open Sys2Proof Sys2Proof.Machine

/-! ## The machine: reset, step, operation codes, ports -/

/-- The state after reset: all input ports 0 (the MODEL's choice, log entry 2; the spec gives no reset value, R33,
R185) and no output port driven (log entry 3). -/
def Obligations.ResetPresentsZerosAndDrivesNothing : Prop :=
  State.reset.inp =
      { op := 0, a := 0, b := 0, mant := 0, exp := 0, sgn := 0, num_present := 0, num_neg := 0, num_inf := 0,
        num_nan := 0, num_whole := 0, num_frac := 0 } ∧
    State.reset.out = OutPorts.idle

/-- One step is the operation whose code is on the `op` port, evaluated on the ports of that state, and the host's
placing a code on `op` changes nothing else (R47, R55, R56). -/
def Obligations.StepRunsTheOperationOnOp : Prop :=
  (∀ (i : Instr) (s : State), s.inp.op = encode i → step s = exec i s) ∧
  (∀ (s : State) (w : Nat) (i : Instr), decodeTableWord 8 w = some i →
    (s.withFetchWord 8 w).out = s.out ∧
    (s.withFetchWord 8 w).inp = { s.inp with op := encode i } ∧
    step (s.withFetchWord 8 w) = exec i (s.withFetchWord 8 w))

/-- The sixteen codes of R57, written out, decode to their rows; a number with a bit above bit 3 is no code. -/
def Obligations.OpCodesDecodeAsTabled : Prop :=
  decodeOp 0b0000#4 = .classify ∧ decodeOp 0b0001#4 = .unpack ∧ decodeOp 0b0010#4 = .align ∧
  decodeOp 0b0011#4 = .reasm ∧ decodeOp 0b0100#4 = .neg ∧ decodeOp 0b0101#4 = .add ∧
  decodeOp 0b0110#4 = .sub ∧ decodeOp 0b0111#4 = .mul ∧ decodeOp 0b1000#4 = .n2f ∧
  decodeOp 0b1001#4 = .f2n ∧ decodeOp 0b1010#4 = .reservedA ∧ decodeOp 0b1011#4 = .reservedB ∧
  decodeOp 0b1100#4 = .reservedC ∧ decodeOp 0b1101#4 = .reservedD ∧ decodeOp 0b1110#4 = .reservedE ∧
  decodeOp 0b1111#4 = .reservedF ∧ decodeTableWord 8 0x10 = none ∧ decodeTableWord 8 0xFF = none

/-- Decoding and encoding are inverse to each other on all sixteen instructions and all sixteen codes, from the
port, from a byte and from a table word (R55, R57). -/
def Obligations.DecodeAndEncodeAgree : Prop :=
  (∀ i : Instr, decodeOp (encode i) = i ∧ decodeWord (encode i).toNat = .ok i ∧
    decodeBytes [(encode i).setWidth 8] = .ok i ∧ decodeTableWord 8 (encode i).toNat = some i) ∧
  (∀ op : OpCode, encode (decodeOp op) = op) ∧
  (∀ (w : Nat) (i : Instr), decodeWord w = .ok i → w = (encode i).toNat)

/-- Each of the ten operations completes in every state, drives `op_illegal` to 0 and its own ports, and leaves the
inputs as they are; so does every transaction a host can write in the notation of R61 (R56, R57, R59). -/
def Obligations.EveryTransactionCompletes : Prop :=
  (∀ (i : Instr) (s : State),
    (i = .classify ∨ i = .unpack ∨ i = .align ∨ i = .reasm ∨ i = .neg ∨ i = .add ∨ i = .sub ∨ i = .mul ∨ i = .n2f ∨
      i = .f2n) →
    ∃ u, exec i s = .next u ∧ u.inp = s.inp ∧ u.out.op_illegal = .driven 0#1 ∧ drivesOnly i u.out = true) ∧
  (∀ (t : Transaction) (s : State), ∃ u, transact t s = .next u ∧ u.inp = (present t s).inp ∧
    u.out.op_illegal = .driven 0#1 ∧ (present t s).inp.op = encode t.instr ∧
    drivesOnly t.instr u.out = true)

/-- R58: each reserved code is refused, carrying the code and `op_illegal = 1`. -/
def Obligations.ReservedCodesAreRefused : Prop :=
  ∀ s : State,
    exec .reservedA s = .refused (.reservedOp 0xA#4 1#1) ∧ exec .reservedB s = .refused (.reservedOp 0xB#4 1#1) ∧
    exec .reservedC s = .refused (.reservedOp 0xC#4 1#1) ∧ exec .reservedD s = .refused (.reservedOp 0xD#4 1#1) ∧
    exec .reservedE s = .refused (.reservedOp 0xE#4 1#1) ∧ exec .reservedF s = .refused (.reservedOp 0xF#4 1#1)

/-- Over all states: a step completes with `op_illegal = 0` exactly when `op` is below 0xA, and otherwise is refused
with `op_illegal = 1`; there is no third outcome (R57, R58, R171, R175). -/
def Obligations.StepCompletesExactlyBelowReserved : Prop :=
  ∀ s : State,
    (s.inp.op.toNat < 10 → ∃ t, step s = .next t ∧ t.out.op_illegal = .driven 0#1) ∧
    (10 ≤ s.inp.op.toNat → step s = .refused (.reservedOp s.inp.op 1#1)) ∧
    (s.selectsOperation = true ↔ Completes (step s))

/-- R28: an operation drives exactly the ports its row names, an `o_` port exactly when its write enable is 1. -/
def Obligations.OperationsDriveOnlyTheirPorts : Prop :=
  ∀ (i : Instr) (s t : State), exec i s = .next t → drivesOnly i t.out = true ∧ t.out.op_illegal = .driven 0#1

/-- R25: the outputs of an operation are a function of the ports it reads; nothing an earlier transaction
left, and no port it does not read, changes them. -/
def Obligations.OutputsDependOnlyOnPortsRead : Prop :=
  ∀ (i : Instr) (s₁ s₂ t₁ : State), agreeOnRead i s₁.inp s₂.inp → exec i s₁ = .next t₁ →
    ∃ t₂, exec i s₂ = .next t₂ ∧ t₂.out = t₁.out

/-- The frame of every step, and R43's idempotence: the input ports are unchanged, and evaluating the same
inputs again changes nothing. -/
def Obligations.StepKeepsInputsAndIsIdempotent : Prop :=
  ∀ s t : State, step s = .next t → t.inp = s.inp ∧ step t = .next t

/-- `State.coherent` is an invariant of the step: the outputs are those of the operation ON THE `op` PORT, with a NaN on
`r` only as R53 allows that operation (R28, R53, R57, R84, R93). A step replaces the outputs whole, so the second clause
says more than the first: a next state is coherent whatever stood on the outputs before. -/
def Obligations.StepKeepsOutputsCoherent : Prop :=
  (∀ s t : State, s.coherent → step s = .next t → t.coherent) ∧
  (∀ s t : State, step s = .next t → t.coherent ∧ t.out ≠ .idle)

/-- The state after reset meets the invariant: no output is driven, by the model's choice of log entry 3. -/
def Obligations.ResetOutputsCoherent : Prop := State.reset.coherent

/-- R53: there are 126 NaN patterns and every operation accepts each of them as an operand; a NaN on `r` is
`CANON_NAN` bit for bit and comes from `ADD`, `SUB`, `MUL` or `N2F`, except that `NEG` of a NaN returns that NaN with
its sign bit flipped. `CANON_NAN` is a NaN whatever its free bits are. -/
def Obligations.NaNResultsAreCanonical : Prop :=
  isNaN Config.canonNan = true ∧
  (List.finRange 2048).countP (fun n => isNaN (BitVec.ofFin n)) = 126 ∧
  (∀ (t : Transaction) (s : State), ∃ u, transact t s = .next u) ∧
  ∀ (i : Instr) (s t : State) (v : Enc), exec i s = .next t → t.out.r = .driven v → isNaN v = true →
    (i = .neg ∧ isNaN s.inp.a = true ∧ v = s.inp.a ^^^ 0x400#11) ∨
    ((i = .add ∨ i = .sub ∨ i = .mul ∨ i = .n2f) ∧ v = Config.canonNan)

/-- R62: the six pseudo-operations are their expansions: `CLASS` with one output taken, and `ALIGN` of a value with
itself; and `SUB a, b` is `t = NEG b; r = ADD a, t`. -/
def Obligations.PseudoOperationsExpand : Prop :=
  (∀ (a b : Enc) (s : State), ∃ (u u' : State) (t r : Enc),
    transact (.neg b) s = .next u ∧ u.out.r = .driven t ∧ transact (.add a t) u = .next u' ∧ u'.out.r = .driven r ∧
    resultOf (.sub a b) s = some r) ∧
  ∀ (v : Enc) (s : State),
    (∃ u, transact (expandPseudo (.isnan v)) s = .next u ∧
      selectPseudo (.isnan v) u.out = .driven (bit (isNaN v)) ∧
      transact (expandPseudo (.isinf v)) s = .next u ∧
      selectPseudo (.isinf v) u.out = .driven (bit (isInfinity v)) ∧
      transact (expandPseudo (.isdenorm v)) s = .next u ∧
      selectPseudo (.isdenorm v) u.out = .driven (bit (isDenormalized v)) ∧
      transact (expandPseudo (.isneg v)) s = .next u ∧
      selectPseudo (.isneg v) u.out = .driven (bit (isNegative v)) ∧
      transact (expandPseudo (.iszero v)) s = .next u ∧
      selectPseudo (.iszero v) u.out = .driven (bit (isZero v)) ∧
      transact (.classify v) s = .next u) ∧
    transact (expandPseudo (.align1 v)) s = transact (.align v v) s

/-! ## The encoded value and the predicates -/

/-- R51: every pattern belongs to exactly one row (signed zero, denormal, normal, Infinity, NaN), with its leading
bit, its unbiased exponent and its value. -/
def Obligations.EveryPatternHasItsClass : Prop :=
  ∀ v : Enc,
    [isZero v, isDenormalized v && !isZero v, isFinite v && !isDenormalized v, isInfinity v, isNaN v].count true = 1 ∧
    (expField v = 0#4 → fracField v = 0#6 →
      isZero v = true ∧ isDenormalized v = true ∧ leadBit v = 0 ∧ unbiasedExp v = -6 ∧ val v = 0) ∧
    (expField v = 0#4 → fracField v ≠ 0#6 →
      isZero v = false ∧ isDenormalized v = true ∧ leadBit v = 0 ∧ unbiasedExp v = -6 ∧
      val v = (-1) ^ (signField v).toNat * (fracField v).toNat * 2 ^ (-12 : Int)) ∧
    (1 ≤ (expField v).toNat → (expField v).toNat ≤ 14 →
      isDenormalized v = false ∧ isFinite v = true ∧ leadBit v = 1 ∧
      unbiasedExp v = ((expField v).toNat : Int) - 7 ∧
      val v = (-1) ^ (signField v).toNat * (64 + (fracField v).toNat) * 2 ^ (((expField v).toNat : Int) - 13)) ∧
    (expField v = 15#4 → fracField v = 0#6 →
      isInfinity v = true ∧ isNaN v = false ∧ isFinite v = false ∧ isDenormalized v = false) ∧
    (expField v = 15#4 → fracField v ≠ 0#6 →
      isNaN v = true ∧ isInfinity v = false ∧ isFinite v = false ∧ isDenormalized v = false)

/-- R54: the named patterns have the values of the table and are the smallest and largest of their class, every
finite value is an integer multiple of 2⁻¹², and each finite non-zero real that is representable has exactly one
encoding. -/
def Obligations.FiniteEncodingsAreUnique : Prop :=
  val 0x001#11 = 2 ^ (-12 : Int) ∧ val 0x03F#11 = 63 * 2 ^ (-12 : Int) ∧ val 0x040#11 = 2 ^ (-6 : Int) ∧
  val 0x1C0#11 = 1 ∧ val 0x3BF#11 = 254 ∧
  (∀ v : Enc, isFinite v = true → |val v| ≤ 254 ∧ ∃ n : Int, val v = n * 2 ^ (-12 : Int)) ∧
  (∀ v : Enc, isDenormalized v = true → isZero v = false → |val 0x001#11| ≤ |val v| ∧ |val v| ≤ |val 0x03F#11|) ∧
  (∀ v : Enc, isFinite v = true → isDenormalized v = false → |val 0x040#11| ≤ |val v|) ∧
  (∀ u v : Enc, isFinite u = true → isFinite v = true → val u ≠ 0 → val u = val v → u = v)

/-- R70: `CLASS` completes in every state and drives the five predicates of `a`, and nothing else. -/
def Obligations.ClassDrivesFivePredicates : Prop :=
  ∀ s : State, exec .classify s = .next (delivered s { OutPorts.idle with
    is_nan := .driven (if expField s.inp.a = 15#4 ∧ fracField s.inp.a ≠ 0#6 then 1#1 else 0#1)
    is_inf := .driven (if s.inp.a = 0x3C0#11 ∨ s.inp.a = 0x7C0#11 then 1#1 else 0#1)
    is_denorm := .driven (if expField s.inp.a = 0#4 then 1#1 else 0#1)
    is_neg := .driven (if signField s.inp.a = 1#1 then 1#1 else 0#1)
    is_zero := .driven (if expField s.inp.a = 0#4 ∧ fracField s.inp.a = 0#6 then 1#1 else 0#1) })

/-- R71 to R75: what each predicate tests, and of how many patterns it is true. -/
def Obligations.PredicatesTestTheirFields : Prop :=
  (∀ v : Enc,
    (isNaN v = true ↔ expField v = 15#4 ∧ fracField v ≠ 0#6) ∧
    (isInfinity v = true ↔ v = 0x3C0#11 ∨ v = 0x7C0#11) ∧
    (isInfinity v = true ↔ expField v = 15#4 ∧ fracField v = 0#6) ∧
    (isDenormalized v = true ↔ expField v = 0#4) ∧
    (isNegative v = true ↔ signField v = 1#1) ∧
    (isZero v = true ↔ expField v = 0#4 ∧ fracField v = 0#6) ∧
    (isZero v = true ↔ v &&& 0x3FF#11 = 0#11)) ∧
  (List.finRange 2048).countP (fun n => isNaN (BitVec.ofFin n)) = 126 ∧
  (List.finRange 2048).countP (fun n => isInfinity (BitVec.ofFin n)) = 2 ∧
  (List.finRange 2048).countP (fun n => isDenormalized (BitVec.ofFin n)) = 128 ∧
  (List.finRange 2048).countP (fun n => isNegative (BitVec.ofFin n)) = 1024 ∧
  (List.finRange 2048).countP (fun n => isZero (BitVec.ofFin n)) = 2

/-- R76: the relations between the predicates, and the class counts over the 2048 patterns. -/
def Obligations.PredicatesRelateAsStated : Prop :=
  (∀ v : Enc,
    (isZero v = true → isDenormalized v = true) ∧
    ¬ (isNaN v = true ∧ isInfinity v = true) ∧
    (isNaN v = true ∨ isInfinity v = true →
      expField v = 15#4 ∧ isDenormalized v = false ∧ isZero v = false) ∧
    (isFinite v = true ↔ isNaN v = false ∧ isInfinity v = false) ∧
    -- `isNegative` is independent of the other four
    (isNegative (v ^^^ 0x400#11) = !isNegative v ∧ isNaN (v ^^^ 0x400#11) = isNaN v ∧
      isInfinity (v ^^^ 0x400#11) = isInfinity v ∧ isDenormalized (v ^^^ 0x400#11) = isDenormalized v ∧
      isZero (v ^^^ 0x400#11) = isZero v)) ∧
  (List.finRange 2048).countP (fun n => isNaN (BitVec.ofFin n)) = 126 ∧
  (List.finRange 2048).countP (fun n => isInfinity (BitVec.ofFin n)) = 2 ∧
  (List.finRange 2048).countP (fun n => isDenormalized (BitVec.ofFin n)) = 128 ∧
  (List.finRange 2048).countP (fun n => isZero (BitVec.ofFin n)) = 2 ∧
  (List.finRange 2048).countP (fun n => isFinite (BitVec.ofFin n) && !isDenormalized (BitVec.ofFin n)) = 1792

/-! ## The bridge: shifts, UNPACK, ALIGN -/

/-- R81: `SHR1` moves bit 0 of `w` to bit 31 of `f` and raises the exponent; it halves the pair as one number, and
changes the value only by the dropped bit, which weighs `2^(e-W)`. -/
def Obligations.RightShiftKeepsValueButDroppedBit : Prop :=
  ∀ x : Split,
    (shr1 x).e = x.e + 1 ∧
    (shr1 x).w.toNat * 2 ^ 32 + (shr1 x).f.toNat = (x.w.toNat * 2 ^ 32 + x.f.toNat) / 2 ∧
    (shr1 x).f.getLsbD 31 = x.w.getLsbD 0 ∧
    splitVal (shr1 x) = splitVal x - (if x.f.getLsbD 0 then 2 ^ (x.e - 32) else 0) ∧
    (splitVal (shr1 x) = splitVal x ↔ x.f.getLsbD 0 = false)

/-- `SHL1` as R82 defines it, without R82's clause on where the operations use it: `SHL1` moves bit 31 of `f` to bit 0 of `w` and lowers the exponent; it doubles the pair as one number modulo
2^64, and keeps the value exactly when the dropped bit `W-1` of `w` is 0. -/
def Obligations.LeftShiftKeepsValueUnlessBitDropped : Prop :=
  ∀ x : Split,
    (shl1 x).e = x.e - 1 ∧
    (shl1 x).w.toNat * 2 ^ 32 + (shl1 x).f.toNat = 2 * (x.w.toNat * 2 ^ 32 + x.f.toNat) % 2 ^ 64 ∧
    (shl1 x).w.getLsbD 0 = x.f.getLsbD 31 ∧
    (splitVal (shl1 x) = splitVal x ↔ x.w.getLsbD 31 = false)

/-- R84 (and for exponent field 15 the reading of R86): `Extract` gives the leading bit as whole part, the fraction field left-justified, the unbiased exponent
(8 for a special); the split number's value is `|val|` of every finite operand. -/
def Obligations.ExtractHoldsMagnitude : Prop :=
  ∀ v : Enc,
    (expField v = 0#4 → (extract v).w = 0#32 ∧ (extract v).e = -6) ∧
    (expField v ≠ 0#4 → (extract v).w = 1#32 ∧ (extract v).e = ((expField v).toNat : Int) - 7) ∧
    (expField v = 15#4 → (extract v).w = 1#32 ∧ (extract v).e = 8) ∧
    (extract v).f = (fracField v).setWidth 32 <<< 26 ∧
    -6 ≤ (extract v).e ∧ (extract v).e ≤ 8 ∧
    (isFinite v = true → splitVal (extract v) = |val v|)

/-- R85: `UNPACK` completes in every state and drives the sign, the extracted split number and the five predicates of
`a`, and nothing else. -/
def Obligations.UnpackDrivesExtractionAndFlags : Prop :=
  ∀ s : State, ∃ e : ExpPort,
    e.toInt = (if expField s.inp.a = 0#4 then (-6 : Int) else ((expField s.inp.a).toNat : Int) - 7) ∧
    exec .unpack s = .next (delivered s { OutPorts.idle with
      u_sign := .driven (signField s.inp.a)
      u_whole := .driven (if expField s.inp.a = 0#4 then 0#32 else 1#32)
      u_frac := .driven ((fracField s.inp.a).setWidth 32 <<< 26)
      u_exp := .driven e
      is_nan := .driven (bit (isNaN s.inp.a))
      is_inf := .driven (bit (isInfinity s.inp.a))
      is_denorm := .driven (bit (isDenormalized s.inp.a))
      is_neg := .driven (bit (isNegative s.inp.a))
      is_zero := .driven (bit (isZero s.inp.a)) })

/-- R90: `ALIGN` completes in every state; for finite operands the two mantissas at the shared exponent are the two
magnitudes exactly. -/
def Obligations.AlignAnswersExactMagnitudes : Prop :=
  ∀ s : State, ∃ (m1 m2 : Acc) (e : ExpPort),
    exec .align s =
      .next (delivered s { OutPorts.idle with m1 := .driven m1, m2 := .driven m2, e_sh := .driven e }) ∧
    (isFinite s.inp.a = true → isFinite s.inp.b = true →
      (m1.toNat : ℚ) * 2 ^ e.toInt = |val s.inp.a| ∧ (m2.toNat : ℚ) * 2 ^ e.toInt = |val s.inp.b|)

/-- R91: the loops of `ALIGN` equal the closed form for all 2048 × 2048 operand pairs; a mantissa is odd unless both
operands are zero. On special operands this rests on the spec's own reading of their extraction (R86, D13; log
entry 7). -/
def Obligations.AlignMatchesClosedForm : Prop :=
  ∀ s : State, ∃ (m1 m2 : Acc) (e : ExpPort),
    exec .align s =
      .next (delivered s { OutPorts.idle with m1 := .driven m1, m2 := .driven m2, e_sh := .driven e }) ∧
    e.toInt = closedAlignExp s.inp.a s.inp.b ∧
    (m1.toNat : ℚ) = significand s.inp.a * 2 ^ (unitExp s.inp.a - e.toInt) ∧
    (m2.toNat : ℚ) = significand s.inp.b * 2 ^ (unitExp s.inp.b - e.toInt) ∧
    (significand s.inp.a ≠ 0 ∨ significand s.inp.b ≠ 0 → m1.toNat % 2 = 1 ∨ m2.toNat % 2 = 1)

/-- The bounds of R94 on the outputs of `ALIGN`, for finite operands and for all. -/
def Obligations.AlignOutputsBounded : Prop :=
  ∀ s : State, ∃ (m1 m2 : Acc) (e : ExpPort),
    exec .align s =
      .next (delivered s { OutPorts.idle with m1 := .driven m1, m2 := .driven m2, e_sh := .driven e }) ∧
    -12 ≤ e.toInt ∧ e.toInt ≤ 8 ∧ m1.toNat ≤ 127 * 2 ^ 14 ∧ m2.toNat ≤ 127 * 2 ^ 14 ∧
    (isFinite s.inp.a = true → isFinite s.inp.b = true →
      e.toInt ≤ 7 ∧ m1.toNat ≤ 1040384 ∧ m2.toNat ≤ 1040384 ∧ m1.toNat + m2.toNat < 2 ^ 21 ∧
      m1.toNat * m2.toNat ≤ 132128768)

/-- R96: `ALIGN a, a` is the one-operand form, the odd-reduced significand and its exponent. -/
def Obligations.AlignOneOperandForm : Prop :=
  ∀ (v : Enc) (s : State), ∃ (m : Acc) (e : ExpPort) (u : State),
    transact (.align v v) s = .next u ∧ u.out.m1 = .driven m ∧ u.out.m2 = .driven m ∧ u.out.e_sh = .driven e ∧
    (significand v ≠ 0 → m.toNat = significand v >>> tz (significand v) ∧ m.toNat % 2 = 1 ∧
      e.toInt = unbiasedExp v - 6 + tz (significand v)) ∧
    (significand v = 0 → m.toNat = 0 ∧ e.toInt = -6) ∧
    (isFinite v = true → |val v| = (m.toNat : ℚ) * 2 ^ e.toInt)

/-- R92: a zero operand of `ALIGN` has mantissa 0 and leaves the other operand odd-reduced; two zeros give exponent
-6. R93: an Infinity aligns as `1.000000 × 2^8` and a NaN with fraction `f` as `(64 + f)/64 × 2^8`. -/
def Obligations.AlignZeroAndSpecialOperands : Prop :=
  ∀ s : State, ∃ (m1 m2 : Acc) (e : ExpPort),
    exec .align s =
      .next (delivered s { OutPorts.idle with m1 := .driven m1, m2 := .driven m2, e_sh := .driven e }) ∧
    (isZero s.inp.a = true → m1 = 0#32) ∧ (isZero s.inp.b = true → m2 = 0#32) ∧
    (isZero s.inp.a = true → isZero s.inp.b = false →
      m2.toNat = significand s.inp.b >>> tz (significand s.inp.b) ∧ e.toInt = lowestBitExp s.inp.b) ∧
    (isZero s.inp.b = true → isZero s.inp.a = false →
      m1.toNat = significand s.inp.a >>> tz (significand s.inp.a) ∧ e.toInt = lowestBitExp s.inp.a) ∧
    (isZero s.inp.a = true → isZero s.inp.b = true → e.toInt = -6) ∧
    (isFinite s.inp.a = false →
      (m1.toNat : ℚ) * 2 ^ e.toInt = (64 + ((fracField s.inp.a).toNat : ℚ)) / 64 * 2 ^ 8) ∧
    (isFinite s.inp.b = false →
      (m2.toNat : ℚ) * 2 ^ e.toInt = (64 + ((fracField s.inp.b).toNat : ℚ)) / 64 * 2 ^ 8)

/-- Swapping the operands of `ALIGN` swaps the mantissas and keeps the exponent (R87; V-ALN-1, V-ALN-2). -/
def Obligations.AlignSwapsWithItsOperands : Prop :=
  ∀ (a b : Enc) (s u : State), transact (.align a b) s = .next u →
    ∃ u', transact (.align b a) s = .next u' ∧ u'.out.m1 = u.out.m2 ∧ u'.out.m2 = u.out.m1 ∧
      u'.out.e_sh = u.out.e_sh

/-- R95, R110, R125, R126, R135, R193: every loop of the model ends by its own condition within the bound it is given,
so the bounds change no result. -/
def Obligations.EveryLoopEndsByItsCondition : Prop :=
  (∀ a b : Enc,
    let q := equalizeExponents (extract a, extract b)
    q.1.e = max (unbiasedExp a) (unbiasedExp b) ∧ q.2.e = q.1.e ∧
    (clearFractions q).1.f = 0#32 ∧ (clearFractions q).2.f = 0#32 ∧ (clearFractions q).2.e = (clearFractions q).1.e) ∧
  (∀ (m : Acc) (x : Int), m ≠ 0#32 → (normalizeRight { w := m, f := 0#32, e := x }).w = 1#32) ∧
  (∀ (m : Acc) (x : Int), -128 ≤ x → x ≤ -6 → (denormalizeRight { w := m, f := 0#32, e := x }).e = -6) ∧
  (∀ whole frac : Acc, whole.toNat < 256 → ¬ (whole = 0#32 ∧ frac = 0#32) →
    (normalizeLeft (normalizeRight { w := whole, f := frac, e := 0 })).w = 1#32) ∧
  (∀ whole frac : Acc, (denormalizeLeft { w := whole, f := frac, e := 0 }).e = -6) ∧
  (∀ v : Enc, isFinite v = true → (shiftToUnits (extract v)).e = 0)

/-! ## REASM -/

/-- R101: a zero mantissa gives the signed zero whatever `exp` is. -/
def Obligations.ReasmZeroMantissaGivesSignedZero : Prop :=
  ∀ s : State, s.inp.mant = 0#32 →
    exec .reasm s = .next (deliveredResult s (if s.inp.sgn = 1#1 then 0x400#11 else 0x000#11))

/-- R103: overflow to the signed Infinity exactly when `mant × 2^exp ≥ 256`; below 256 the result is finite. -/
def Obligations.ReasmOverflowsAt256 : Prop :=
  ∀ s : State, s.inp.mant ≠ 0#32 →
    (15 ≤ s.inp.exp.toInt + ilog2 s.inp.mant.toNat + 7 ↔ (256 : ℚ) ≤ s.inp.mant.toNat * 2 ^ s.inp.exp.toInt) ∧
    (15 ≤ s.inp.exp.toInt + ilog2 s.inp.mant.toNat + 7 →
      exec .reasm s = .next (deliveredResult s (if s.inp.sgn = 1#1 then 0x7C0#11 else 0x3C0#11))) ∧
    (s.inp.mant.toNat * (2 : ℚ) ^ s.inp.exp.toInt < 256 →
      ∃ r : Enc, exec .reasm s = .next (deliveredResult s r) ∧ isFinite r = true)

/-- R106: the loops of `REASM` equal the closed form for every mantissa, exponent and sign; so `REASM` completes in
every state (R111). -/
def Obligations.ReasmMatchesClosedForm : Prop :=
  ∀ s : State, ∃ r : Enc,
    exec .reasm s = .next (deliveredResult s r) ∧ signField r = s.inp.sgn ∧
    (s.inp.mant = 0#32 → expField r = 0#4 ∧ fracField r = 0#6) ∧
    (s.inp.mant ≠ 0#32 →
      let m := s.inp.mant.toNat
      let p : Int := ilog2 m
      let en := s.inp.exp.toInt + p
      (8 ≤ en → expField r = 15#4 ∧ fracField r = 0#6) ∧
      (-6 ≤ en → en ≤ 7 →
        ((expField r).toNat : Int) = en + 7 ∧ ((fracField r).toNat : Int) = ⌊(m : ℚ) * 2 ^ (6 - p)⌋ - 64) ∧
      (-12 ≤ en → en ≤ -7 →
        expField r = 0#4 ∧ ((fracField r).toNat : Int) = ⌊(m : ℚ) * 2 ^ (s.inp.exp.toInt + 12)⌋ ∧
        1 ≤ (fracField r).toNat ∧ (fracField r).toNat ≤ 63) ∧
      (en ≤ -13 → expField r = 0#4 ∧ fracField r = 0#6))

/-- R107: `REASM` truncates `mant × 2^exp` toward zero to a representable magnitude and attaches the sign; from 256 up
Infinity, below 2⁻¹² zero, in [254, 256) the largest finite value. -/
def Obligations.ReasmTruncatesTowardZero : Prop :=
  ∀ s : State, ∃ r : Enc,
    exec .reasm s = .next (deliveredResult s r) ∧
    TruncatesTo ((s.inp.mant.toNat : ℚ) * 2 ^ s.inp.exp.toInt) s.inp.sgn r ∧
    ((s.inp.mant.toNat : ℚ) * 2 ^ s.inp.exp.toInt < 2 ^ (-12 : Int) → isZero r = true) ∧
    ((254 : ℚ) ≤ s.inp.mant.toNat * 2 ^ s.inp.exp.toInt →
      (s.inp.mant.toNat : ℚ) * 2 ^ s.inp.exp.toInt < 256 → r &&& 0x3FF#11 = 0x3BF#11)

/-- R112: `REASM` of what `ALIGN` delivers returns the operand bit for bit, for every pair of finite operands; and
`REASM` is not injective. -/
def Obligations.ReasmInvertsAlign : Prop :=
  (∀ (a b : Enc) (s : State), isFinite a = true → isFinite b = true →
    ∃ (t : State) (m1 m2 : Acc) (e : ExpPort),
      transact (.align a b) s = .next t ∧ t.out.m1 = .driven m1 ∧ t.out.m2 = .driven m2 ∧ t.out.e_sh = .driven e ∧
      resultOf (.reasm m1 e (signField a)) t = some a ∧ resultOf (.reasm m2 e (signField b)) t = some b) ∧
  (∀ s : State, resultOf (.reasm 3#32 (-1) 0#1) s = some 0x1E0#11 ∧ resultOf (.reasm 6#32 (-2) 0#1) s = some 0x1E0#11)

/-! ## The converters -/

/-- R121 to R124: the guards of `N2F`, in their order: absent struct, NaN flag, Infinity flag or whole part of 256 or
more, zero. -/
def Obligations.N2fGuardsInOrder : Prop :=
  ∀ s : State,
    (s.inp.num_present = 0#1 → exec .n2f s = .next (deliveredResult s Config.canonNan)) ∧
    (s.inp.num_present = 1#1 → s.inp.num_nan = 1#1 → exec .n2f s = .next (deliveredResult s Config.canonNan)) ∧
    (s.inp.num_present = 1#1 → s.inp.num_nan = 0#1 → (s.inp.num_inf = 1#1 ∨ 256 ≤ s.inp.num_whole.toNat) →
      exec .n2f s = .next (deliveredResult s (if s.inp.num_neg = 1#1 then 0x7C0#11 else 0x3C0#11))) ∧
    (s.inp.num_present = 1#1 → s.inp.num_nan = 0#1 → s.inp.num_inf = 0#1 → s.inp.num_whole = 0#32 →
      s.inp.num_frac = 0#32 →
      exec .n2f s = .next (deliveredResult s (if s.inp.num_neg = 1#1 then 0x400#11 else 0x000#11))) ∧
    (s.inp.num_present = 1#1 → s.inp.num_nan = 0#1 → s.inp.num_inf = 0#1 → s.inp.num_neg = 0#1 →
      s.inp.num_whole = 255#32 → s.inp.num_frac = 0xFFFFFFFF#32 →
      exec .n2f s = .next (deliveredResult s 0x3BF#11))

/-- R128: where no guard of `N2F` holds, its loops equal the closed form and truncate the struct's magnitude
toward zero. -/
def Obligations.N2fMatchesClosedForm : Prop :=
  ∀ s : State, s.inp.num_present = 1#1 → s.inp.num_nan = 0#1 → s.inp.num_inf = 0#1 →
    s.inp.num_whole.toNat < 256 → ¬ (s.inp.num_whole = 0#32 ∧ s.inp.num_frac = 0#32) →
    ∃ r : Enc,
      exec .n2f s = .next (deliveredResult s r) ∧ signField r = s.inp.num_neg ∧
      (let V := s.inp.num_whole.toNat * 2 ^ 32 + s.inp.num_frac.toNat
       let P : Int := ilog2 V - 32
       (-6 ≤ P → P ≤ 7 →
         ((expField r).toNat : Int) = P + 7 ∧
         ((fracField r).toNat : Int) = ⌊(V : ℚ) * 2 ^ (6 - P - 32)⌋ - 64) ∧
       (P ≤ -7 → expField r = 0#4 ∧ fracField r = s.inp.num_frac.extractLsb' 20 6) ∧
       P ≤ 7) ∧
      TruncatesTo ((s.inp.num_whole.toNat : ℚ) + (s.inp.num_frac.toNat : ℚ) / 2 ^ 32) s.inp.num_neg r

/-- R131: `F2N` with no struct fails: `err = 1`, five write enables of 0, whatever `a` is, and no other port. -/
def Obligations.F2nAbsentStructFails : Prop :=
  ∀ s : State, s.inp.num_present = 0#1 →
    exec .f2n s = .next (delivered s { OutPorts.idle with
      err := .driven 1#1, we_neg := .driven 0#1, we_inf := .driven 0#1, we_nan := .driven 0#1
      we_whole := .driven 0#1, we_frac := .driven 0#1 })

/-- R132: in every successful case `F2N` writes the sign from bit 10. R133, R134: of an Infinity or a NaN it writes
its flag besides, and nothing else. -/
def Obligations.F2nWritesSignAndSpecialFlag : Prop :=
  ∀ s : State, s.inp.num_present = 1#1 →
    (∃ t, exec .f2n s = .next t ∧ t.out.err = .driven 0#1 ∧ t.out.we_neg = .driven 1#1 ∧
      t.out.o_neg = .driven (signField s.inp.a)) ∧
    (isInfinity s.inp.a = true →
      exec .f2n s = .next (delivered s { OutPorts.idle with
        err := .driven 0#1, we_neg := .driven 1#1, o_neg := .driven (signField s.inp.a)
        we_inf := .driven 1#1, o_inf := .driven 1#1
        we_nan := .driven 0#1, we_whole := .driven 0#1, we_frac := .driven 0#1 })) ∧
    (isNaN s.inp.a = true →
      exec .f2n s = .next (delivered s { OutPorts.idle with
        err := .driven 0#1, we_neg := .driven 1#1, o_neg := .driven (signField s.inp.a)
        we_nan := .driven 1#1, o_nan := .driven 1#1
        we_inf := .driven 0#1, we_whole := .driven 0#1, we_frac := .driven 0#1 }))

/-- R136: of a finite value `F2N` delivers the exact magnitude `X = S × 2^(e+26)` as whole and fraction, and touches
neither flag. -/
def Obligations.F2nDeliversExactMagnitude : Prop :=
  ∀ s : State, s.inp.num_present = 1#1 → isFinite s.inp.a = true →
    let X := significand s.inp.a * 2 ^ (unbiasedExp s.inp.a + 26).toNat
    exec .f2n s = .next (delivered s { OutPorts.idle with
      err := .driven 0#1, we_neg := .driven 1#1, o_neg := .driven (signField s.inp.a)
      we_whole := .driven 1#1, o_whole := .driven (BitVec.ofNat 32 (X / 2 ^ 32))
      we_frac := .driven 1#1, o_frac := .driven (BitVec.ofNat 32 (X % 2 ^ 32))
      we_inf := .driven 0#1, we_nan := .driven 0#1 }) ∧
    X < 2 ^ 40 ∧ X / 2 ^ 32 ≤ 254 ∧ 2 ^ 20 ∣ X % 2 ^ 32 ∧ ((X / 2 ^ 32 : Nat) : Int) = ⌊|val s.inp.a|⌋ ∧
    ((X / 2 ^ 32 : Nat) : ℚ) + ((X % 2 ^ 32 : Nat) : ℚ) / 2 ^ 32 = |val s.inp.a|

/-- The spec's own reading of a silence of the source (its decision D12, which R138 records; log entry 8, DEDUCED), and
no rule of the source: the write enables of the fields a result of `F2N` does not touch are 0, and those struct
fields keep their values when the host commits the enabled writes. -/
def Obligations.F2nKeepsUnwrittenStructFields : Prop :=
  ∀ s t : State, exec .f2n s = .next t →
    (s.inp.num_present = 0#1 → (commitStruct t).inp = s.inp) ∧
    (s.inp.num_present = 1#1 → isFinite s.inp.a = true →
      t.out.we_inf = .driven 0#1 ∧ t.out.we_nan = .driven 0#1 ∧
      (commitStruct t).inp.num_inf = s.inp.num_inf ∧ (commitStruct t).inp.num_nan = s.inp.num_nan) ∧
    (s.inp.num_present = 1#1 → isInfinity s.inp.a = true →
      t.out.we_nan = .driven 0#1 ∧
      (commitStruct t).inp.num_inf = 1#1 ∧ (commitStruct t).inp.num_nan = s.inp.num_nan ∧
      (commitStruct t).inp.num_whole = s.inp.num_whole ∧ (commitStruct t).inp.num_frac = s.inp.num_frac) ∧
    (s.inp.num_present = 1#1 → isNaN s.inp.a = true →
      t.out.we_inf = .driven 0#1 ∧
      (commitStruct t).inp.num_nan = 1#1 ∧ (commitStruct t).inp.num_inf = s.inp.num_inf ∧
      (commitStruct t).inp.num_whole = s.inp.num_whole ∧ (commitStruct t).inp.num_frac = s.inp.num_frac)

/-- R137: `F2N` into a struct whose two flags are 0, committed by the host, then `N2F` of that struct, returns
the value, for every finite value, negative zero included. -/
def Obligations.StructRoundTripReturnsValue : Prop :=
  ∀ (v : Enc) (s : State), isFinite v = true → s.inp.num_inf = 0#1 → s.inp.num_nan = 0#1 →
    ∃ t u, transact (.f2n v 1#1) s = .next t ∧ step ((commitStruct t).withFetchWord 8 0x8) = .next u ∧
      u.out.r = .driven v

/-! ## The arithmetic -/

/-- R140: `NEG` completes in every state, flips bit 10 and no other bit of any pattern, keeps a NaN a NaN, and is an
involution. -/
def Obligations.NegFlipsOnlyTheSign : Prop :=
  (∀ s : State, exec .neg s = .next (deliveredResult s (s.inp.a ^^^ 0x400#11))) ∧
  (∀ (v : Enc) (s t : State) (w : Enc), transact (.neg v) s = .next t → t.out.r = .driven w →
    signField w ≠ signField v ∧ expField w = expField v ∧ fracField w = fracField v ∧ isNaN w = isNaN v ∧
    resultOf (.neg w) t = some v)

/-- R142: the decision table of the guards of `MUL`, over the classes of the two operands. -/
def Obligations.MulGuardTable : Prop :=
  ∀ s : State,
    let a := s.inp.a
    let b := s.inp.b
    let sg := signField a ^^^ signField b
    let inf := if sg = 1#1 then 0x7C0#11 else 0x3C0#11
    let zero := if sg = 1#1 then 0x400#11 else 0x000#11
    (isNaN a = true ∨ isNaN b = true → exec .mul s = .next (deliveredResult s Config.canonNan)) ∧
    ((isInfinity a = true ∧ isZero b = true) ∨ (isZero a = true ∧ isInfinity b = true) →
      exec .mul s = .next (deliveredResult s Config.canonNan)) ∧
    (isInfinity a = true ∧ isInfinity b = true → exec .mul s = .next (deliveredResult s inf)) ∧
    (isInfinity a = true ∧ isFinite b = true ∧ isZero b = false → exec .mul s = .next (deliveredResult s inf)) ∧
    (isFinite a = true ∧ isZero a = false ∧ isInfinity b = true → exec .mul s = .next (deliveredResult s inf)) ∧
    (isZero a = true ∧ isZero b = true → exec .mul s = .next (deliveredResult s zero)) ∧
    (isZero a = true ∧ isFinite b = true ∧ isZero b = false → exec .mul s = .next (deliveredResult s zero)) ∧
    (isFinite a = true ∧ isZero a = false ∧ isZero b = true → exec .mul s = .next (deliveredResult s zero)) ∧
    (isFinite a = true ∧ isZero a = false ∧ isFinite b = true ∧ isZero b = false →
      exec .mul s = .next (deliveredResult s (mulGeneral a b)))

/-- R143: of two finite non-zero operands, `MUL` is `REASM` of the product of the mantissas of `ALIGN` at twice the
shared exponent with the XOR of the signs; the exact product is that product at that exponent. -/
def Obligations.MulReassemblesAlignedProduct : Prop :=
  ∀ s : State, isFinite s.inp.a = true → isZero s.inp.a = false → isFinite s.inp.b = true → isZero s.inp.b = false →
    ∃ (t : State) (m1 m2 : Acc) (e : ExpPort) (r : Enc),
      exec .align s = .next t ∧ t.out.m1 = .driven m1 ∧ t.out.m2 = .driven m2 ∧ t.out.e_sh = .driven e ∧
      resultOf (.reasm (m1 * m2) (e + e) (signField s.inp.a ^^^ signField s.inp.b)) t = some r ∧
      exec .mul s = .next (deliveredResult s r) ∧
      ((m1.toNat * m2.toNat : Nat) : ℚ) * 2 ^ (2 * e.toInt) = |val s.inp.a * val s.inp.b|

/-- R144: of two finite non-zero operands, `MUL` is the exact real product truncated toward zero, with the XOR of
the signs. -/
def Obligations.MulTruncatesExactProduct : Prop :=
  ∀ s : State, isFinite s.inp.a = true → isZero s.inp.a = false → isFinite s.inp.b = true → isZero s.inp.b = false →
    ∃ r : Enc, exec .mul s = .next (deliveredResult s r) ∧
      TruncatesTo |val s.inp.a * val s.inp.b| (signField s.inp.a ^^^ signField s.inp.b) r

/-- R146: `MUL` is commutative bit for bit for all operand pairs; its sign is the XOR of the signs of finite non-zero
operands, also on underflow; `MUL v, (NEG v)` has sign bit 1 for every `v` that is not a NaN, a zero result being
`0x400`. -/
def Obligations.MulCommutesAndSignIsXor : Prop :=
  ∀ s : State,
    (∀ a b : Enc, resultOf (.mul a b) s = resultOf (.mul b a) s) ∧
    (∀ a b r : Enc, isFinite a = true → isZero a = false → isFinite b = true → isZero b = false →
      resultOf (.mul a b) s = some r → signField r = signField a ^^^ signField b) ∧
    (∀ v : Enc, isNaN v = false →
      ∃ r, resultOf (.mul v (v ^^^ 0x400#11)) s = some r ∧ signField r = 1#1 ∧ (isZero r = true → r = 0x400#11))

/-- R147: the integer widths of `MUL`: the shared exponent of finite non-zero operands is in -12..7, its double fits
the exponent port, and the product does not wrap in 32 bits. -/
def Obligations.MulWidthsNeverWrap : Prop :=
  ∀ s t : State, isFinite s.inp.a = true → isZero s.inp.a = false → isFinite s.inp.b = true → isZero s.inp.b = false →
    exec .align s = .next t →
    ∃ (m1 m2 : Acc) (e : ExpPort), t.out.m1 = .driven m1 ∧ t.out.m2 = .driven m2 ∧ t.out.e_sh = .driven e ∧
      -12 ≤ e.toInt ∧ e.toInt ≤ 7 ∧ (e + e).toInt = 2 * e.toInt ∧ -24 ≤ 2 * e.toInt ∧ 2 * e.toInt ≤ 14 ∧
      m1.toNat * m2.toNat ≤ 132128768 ∧ (m1 * m2).toNat = m1.toNat * m2.toNat

/-- R151: the decision table of the guards of `ADD`, over the classes of the two operands, either order. -/
def Obligations.AddGuardTable : Prop :=
  ∀ s : State,
    let a := s.inp.a
    let b := s.inp.b
    ((a = 0x3C0#11 ∧ b = 0x7C0#11) ∨ (a = 0x7C0#11 ∧ b = 0x3C0#11) →
      exec .add s = .next (deliveredResult s Config.canonNan)) ∧
    (isNaN a = true ∨ isNaN b = true → exec .add s = .next (deliveredResult s Config.canonNan)) ∧
    (a = 0x3C0#11 ∧ b = 0x3C0#11 → exec .add s = .next (deliveredResult s 0x3C0#11)) ∧
    (a = 0x7C0#11 ∧ b = 0x7C0#11 → exec .add s = .next (deliveredResult s 0x7C0#11)) ∧
    (isFinite a = true ∧ isFinite b = true ∧ a = b ^^^ 0x400#11 →
      exec .add s = .next (deliveredResult s 0x000#11)) ∧
    ((a = 0x3C0#11 ∧ isFinite b = true) ∨ (isFinite a = true ∧ b = 0x3C0#11) →
      exec .add s = .next (deliveredResult s 0x3C0#11)) ∧
    ((a = 0x7C0#11 ∧ isFinite b = true) ∨ (isFinite a = true ∧ b = 0x7C0#11) →
      exec .add s = .next (deliveredResult s 0x7C0#11)) ∧
    (a = 0x000#11 ∧ b = 0x000#11 → exec .add s = .next (deliveredResult s 0x000#11)) ∧
    (a = 0x400#11 ∧ b = 0x400#11 → exec .add s = .next (deliveredResult s 0x400#11)) ∧
    (isZero a = true ∧ isFinite b = true ∧ isZero b = false → exec .add s = .next (deliveredResult s b)) ∧
    (isFinite a = true ∧ isZero a = false ∧ isZero b = true → exec .add s = .next (deliveredResult s a)) ∧
    (isFinite a = true ∧ isZero a = false ∧ isFinite b = true ∧ isZero b = false ∧ a ≠ b ^^^ 0x400#11 →
      exec .add s = .next (deliveredResult s (addGeneral a b)))

/-- R152: of two finite non-zero operands that are not each other's negation, `ADD` is `REASM` of the absolute value of
the signed sum of the mantissas of `ALIGN`, at the shared exponent, with the sign of the sum; the exact sum is that
sum at that exponent. -/
def Obligations.AddReassemblesSignedSum : Prop :=
  ∀ s : State, isFinite s.inp.a = true → isZero s.inp.a = false → isFinite s.inp.b = true → isZero s.inp.b = false →
    s.inp.a ≠ s.inp.b ^^^ 0x400#11 →
    ∃ (t : State) (m1 m2 : Acc) (e : ExpPort) (r : Enc),
      exec .align s = .next t ∧ t.out.m1 = .driven m1 ∧ t.out.m2 = .driven m2 ∧ t.out.e_sh = .driven e ∧
      (let sum : Int := (if signField s.inp.a = 1#1 then -(m1.toNat : Int) else m1.toNat) +
          (if signField s.inp.b = 1#1 then -(m2.toNat : Int) else m2.toNat)
       resultOf (.reasm (BitVec.ofNat 32 sum.natAbs) e (if sum < 0 then 1#1 else 0#1)) t = some r ∧
       exec .add s = .next (deliveredResult s r) ∧
       (sum : ℚ) * 2 ^ e.toInt = val s.inp.a + val s.inp.b)

/-- R153: of two finite non-zero operands that are not each other's negation, `ADD` is the exact real sum with its
magnitude truncated toward zero, and the sign of the exact sum. -/
def Obligations.AddTruncatesExactSum : Prop :=
  ∀ s : State, isFinite s.inp.a = true → isZero s.inp.a = false → isFinite s.inp.b = true → isZero s.inp.b = false →
    s.inp.a ≠ s.inp.b ^^^ 0x400#11 →
    ∃ r : Enc, exec .add s = .next (deliveredResult s r) ∧
      TruncatesTo |val s.inp.a + val s.inp.b| (if val s.inp.a + val s.inp.b < 0 then 1#1 else 0#1) r

/-- R154: the general path of `ADD` never meets a zero sum and never produces a zero; a sum below 2⁻⁶ in magnitude is a
denormal and exact. -/
def Obligations.AddGeneralPathNeverZero : Prop :=
  ∀ s : State, isFinite s.inp.a = true → isZero s.inp.a = false → isFinite s.inp.b = true → isZero s.inp.b = false →
    s.inp.a ≠ s.inp.b ^^^ 0x400#11 →
    2 ^ (-12 : Int) ≤ |val s.inp.a + val s.inp.b| ∧
    ∃ r : Enc, exec .add s = .next (deliveredResult s r) ∧ isZero r = false ∧
      (|val s.inp.a + val s.inp.b| < 2 ^ (-6 : Int) →
        isDenormalized r = true ∧ val r = val s.inp.a + val s.inp.b)

/-- R157: `ADD` is commutative bit for bit for all operand pairs. -/
def Obligations.AddCommutesBitForBit : Prop :=
  ∀ (a b : Enc) (s : State), ∃ r, resultOf (.add a b) s = some r ∧ resultOf (.add b a) s = some r

/-- R160: the integer widths of `ADD`: mantissas below 2^20, signed sums below 2^21, the absolute value fits the
`mant` port and the exponent, in -12..7, the exponent port. -/
def Obligations.AddWidthsNeverWrap : Prop :=
  ∀ s t : State, isFinite s.inp.a = true → isZero s.inp.a = false → isFinite s.inp.b = true → isZero s.inp.b = false →
    exec .align s = .next t →
    ∃ (m1 m2 : Acc) (e : ExpPort), t.out.m1 = .driven m1 ∧ t.out.m2 = .driven m2 ∧ t.out.e_sh = .driven e ∧
      m1.toNat < 2 ^ 20 ∧ m2.toNat < 2 ^ 20 ∧ -12 ≤ e.toInt ∧ e.toInt ≤ 7 ∧
      (let sum := signedMantissa (signField s.inp.a) m1 + signedMantissa (signField s.inp.b) m2
       sum < 2 ^ 21 ∧ -(2 ^ 21) < sum ∧ (BitVec.ofNat 32 sum.natAbs).toNat = sum.natAbs)

/-- R161: `SUB a, b` is the whole of `ADD` applied to `a` and `NEG b`, in every state. -/
def Obligations.SubIsAddOfNegation : Prop :=
  ∀ s : State, ∃ (r nb : Enc), exec .sub s = .next (deliveredResult s r) ∧
    resultOf (.neg s.inp.b) s = some nb ∧ nb = s.inp.b ^^^ 0x400#11 ∧ resultOf (.add s.inp.a nb) s = some r

/-- R162: the corner cases of `SUB`. -/
def Obligations.SubCornerCases : Prop :=
  ∀ s : State,
    (∀ x : Enc, isFinite x = true → resultOf (.sub x x) s = some 0x000#11) ∧
    resultOf (.sub 0x3C0#11 0x3C0#11) s = some Config.canonNan ∧
    resultOf (.sub 0x7C0#11 0x7C0#11) s = some Config.canonNan ∧
    resultOf (.sub 0x3C0#11 0x7C0#11) s = some 0x3C0#11 ∧
    resultOf (.sub 0x7C0#11 0x3C0#11) s = some 0x7C0#11 ∧
    resultOf (.sub 0x1C0#11 0x3C0#11) s = some 0x7C0#11 ∧
    (∀ x n : Enc, isNaN n = true →
      resultOf (.sub x n) s = some Config.canonNan ∧ resultOf (.sub n x) s = some Config.canonNan) ∧
    resultOf (.sub 0x000#11 0x000#11) s = some 0x000#11 ∧
    resultOf (.sub 0x400#11 0x400#11) s = some 0x000#11 ∧
    resultOf (.sub 0x000#11 0x400#11) s = some 0x000#11 ∧
    resultOf (.sub 0x400#11 0x000#11) s = some 0x400#11 ∧
    (∀ x : Enc, isFinite x = true → isZero x = false → resultOf (.sub 0x000#11 x) s = some (x ^^^ 0x400#11)) ∧
    resultOf (.sub 0x140#11 0x1E0#11) s = some 0x5D0#11 ∧
    resultOf (.sub 0x001#11 0x002#11) s = some 0x401#11 ∧
    resultOf (.sub 0x7BF#11 0x3BF#11) s = some 0x7C0#11 ∧
    (∃ x y : Enc, resultOf (.sub x y) s ≠ resultOf (.sub y x) s)

/-- R163: the source's testable properties, each with the extent the rules give it. -/
def Obligations.SourcePropertiesHold : Prop :=
  ∀ s : State,
    (∀ v n : Enc, resultOf (.neg v) s = some n → resultOf (.neg n) s = some v) ∧
    (∀ a b : Enc, isFinite a = true → isZero a = false → isFinite b = true → isZero b = false →
      ∃ r, resultOf (.mul a b) s = some r ∧ signField r = signField a ^^^ signField b) ∧
    (∀ v n : Enc, resultOf (.neg v) s = some n →
      ∃ r, resultOf (.mul v n) s = some r ∧ (isNegative r = true ∨ isZero r = true ∨ isNaN r = true)) ∧
    (∀ v : Enc, isFinite v = true → v ≠ 0x400#11 → resultOf (.add v 0x000#11) s = some v) ∧
    resultOf (.add 0x400#11 0x000#11) s = some 0x000#11 ∧
    (∀ v n : Enc, isFinite v = true → resultOf (.neg v) s = some n → resultOf (.add v n) s = some 0x000#11) ∧
    (∀ n x : Enc, isNaN n = true →
      resultOf (.mul n x) s = some Config.canonNan ∧ resultOf (.mul x n) s = some Config.canonNan ∧
      resultOf (.add n x) s = some Config.canonNan ∧ resultOf (.add x n) s = some Config.canonNan) ∧
    resultOf (.add 0x3C0#11 0x7C0#11) s = some Config.canonNan ∧
    resultOf (.mul 0x3C0#11 0x000#11) s = some Config.canonNan ∧
    resultOf (.mul 0x3C0#11 0x3C0#11) s = some 0x3C0#11
end

