-- ==== Sys2Proof/Laws/Fields.lean ====
section
/-!
SUPPORT. Fields and composition of encoded values (spec/30_encoding.md R50, R51) as arithmetic: the fields of a
composed value, every value composed of its fields, and the predicates, the negation and the named patterns in
terms of fields.
-/

namespace Sys2Proof.Laws

open Sys2Proof.Machine

/-! ## Fields as numbers -/

theorem signField_toNat (v : Enc) : (signField v).toNat = v.toNat / 1024 := by
  have := v.isLt
  rw [signField, BitVec.extractLsb'_toNat, Nat.shiftRight_eq_div_pow]
  omega

theorem expField_toNat (v : Enc) : (expField v).toNat = v.toNat / 64 % 16 := by
  rw [expField, BitVec.extractLsb'_toNat, Nat.shiftRight_eq_div_pow]

theorem fracField_toNat (v : Enc) : (fracField v).toNat = v.toNat % 64 := by
  rw [fracField, BitVec.extractLsb'_toNat, Nat.shiftRight_eq_div_pow, Nat.pow_zero, Nat.div_one]

/-- Composition as a sum of weighted fields (R50). -/
theorem compose_toNat (s : Bit) (e : BitVec 4) (f : BitVec 6) :
    (compose s e f).toNat = s.toNat * 1024 + e.toNat * 64 + f.toNat := by
  have hs := s.isLt
  have he := e.isLt
  have hf := f.isLt
  have e1 : e.toNat <<< 6 = e.toNat * 64 := by rw [Nat.shiftLeft_eq]
  have s1 : s.toNat <<< 10 = s.toNat * 1024 := by rw [Nat.shiftLeft_eq]
  have h1 : (s.setWidth 11 <<< 10).toNat = s.toNat <<< 10 := by
    rw [BitVec.toNat_shiftLeft, BitVec.toNat_setWidth, s1, Nat.shiftLeft_eq]; omega
  have h2 : (e.setWidth 11 <<< 6).toNat = e.toNat <<< 6 := by
    rw [BitVec.toNat_shiftLeft, BitVec.toNat_setWidth, e1, Nat.shiftLeft_eq]; omega
  have h3 : (f.setWidth 11).toNat = f.toNat := by rw [BitVec.toNat_setWidth]; omega
  rw [compose, BitVec.toNat_or, BitVec.toNat_or, h1, h2, h3, Nat.or_assoc,
    ← Nat.shiftLeft_add_eq_or_of_lt (by omega) e.toNat, ← Nat.shiftLeft_add_eq_or_of_lt (by omega) s.toNat]
  omega

@[simp] theorem signField_compose (s : Bit) (e : BitVec 4) (f : BitVec 6) : signField (compose s e f) = s :=
  BitVec.eq_of_toNat_eq (by
    have := s.isLt; have := e.isLt; have := f.isLt
    rw [signField_toNat, compose_toNat]; omega)

@[simp] theorem expField_compose (s : Bit) (e : BitVec 4) (f : BitVec 6) : expField (compose s e f) = e :=
  BitVec.eq_of_toNat_eq (by
    have := s.isLt; have := e.isLt; have := f.isLt
    rw [expField_toNat, compose_toNat]; omega)

@[simp] theorem fracField_compose (s : Bit) (e : BitVec 4) (f : BitVec 6) : fracField (compose s e f) = f :=
  BitVec.eq_of_toNat_eq (by
    have := s.isLt; have := e.isLt; have := f.isLt
    rw [fracField_toNat, compose_toNat]; omega)

/-- Every encoded value is composed of its fields (R50). -/
theorem compose_fields (v : Enc) : compose (signField v) (expField v) (fracField v) = v :=
  BitVec.eq_of_toNat_eq (by
    have := v.isLt
    rw [compose_toNat, signField_toNat, expField_toNat, fracField_toNat]; omega)

/-- Two encoded values with the same three fields are equal. -/
theorem enc_ext {u v : Enc} (hs : signField u = signField v) (he : expField u = expField v)
    (hf : fracField u = fracField v) : u = v := by
  rw [← compose_fields u, ← compose_fields v, hs, he, hf]

theorem compose_inj {s s' : Bit} {e e' : BitVec 4} {f f' : BitVec 6} (h : compose s e f = compose s' e' f') :
    s = s' ∧ e = e' ∧ f = f' :=
  ⟨by simpa using congrArg signField h, by simpa using congrArg expField h, by simpa using congrArg fracField h⟩

/-! ## Named patterns -/

theorem bit_cases (s : Bit) : s = 0#1 ∨ s = 1#1 := by
  revert s; decide

theorem signedInf_eq_compose (s : Bit) : signedInf s = compose s 15#4 0#6 := by
  revert s; decide

theorem signedZero_eq_compose (s : Bit) : signedZero s = compose s 0#4 0#6 := by
  revert s; decide

theorem posInf_eq_compose : Config.posInf = compose 0#1 15#4 0#6 := by decide

theorem negInf_eq_compose : Config.negInf = compose 1#1 15#4 0#6 := by decide

theorem posZero_eq_compose : Config.posZero = compose 0#1 0#4 0#6 := by decide

/-- The two parameters of `CANON_NAN` give its three fields (D8). -/
theorem canonNan_eq_compose :
    Config.canonNan = compose Config.canonNanSign 15#4 (BitVec.ofNat 6 (Config.canonNanFrac.val + 1)) := by
  unfold Config.canonNan
  generalize Config.canonNanSign = s
  generalize Config.canonNanFrac = f
  revert s f
  decide

/-! ## Predicates in fields (R71 to R76) -/

theorem isNaN_iff (v : Enc) : isNaN v = true ↔ expField v = 15#4 ∧ fracField v ≠ 0#6 := by
  simp [isNaN, Config.expSpecial]

theorem isInfinity_iff (v : Enc) : isInfinity v = true ↔ expField v = 15#4 ∧ fracField v = 0#6 := by
  constructor
  · intro h
    have h' : v = Config.posInf ∨ v = Config.negInf := by simpa [isInfinity] using h
    rcases h' with rfl | rfl <;> decide
  · rintro ⟨he, hf⟩
    have hv : v = compose (signField v) 15#4 0#6 := by rw [← he, ← hf, compose_fields]
    rcases bit_cases (signField v) with hs | hs <;> rw [hv, hs] <;> decide

theorem isDenormalized_iff (v : Enc) : isDenormalized v = true ↔ expField v = 0#4 := by
  simp [isDenormalized]

theorem isNegative_iff (v : Enc) : isNegative v = true ↔ signField v = 1#1 := by
  simp [isNegative]

theorem isZero_iff (v : Enc) : isZero v = true ↔ expField v = 0#4 ∧ fracField v = 0#6 := by
  simp [isZero]

theorem isFinite_iff (v : Enc) : isFinite v = true ↔ expField v ≠ 15#4 := by
  simp [isFinite, Config.expSpecial]

/-- Every value is a NaN, an Infinity or finite, and only one of them (R51, R76). -/
theorem nan_or_inf_or_finite (v : Enc) :
    (isNaN v = true ∧ isInfinity v = false ∧ isFinite v = false) ∨
    (isNaN v = false ∧ isInfinity v = true ∧ isFinite v = false) ∨
    (isNaN v = false ∧ isInfinity v = false ∧ isFinite v = true) := by
  have h1 := isNaN_iff v
  have h2 := isInfinity_iff v
  have h3 := isFinite_iff v
  cases hn : isNaN v <;> cases hi : isInfinity v <;> cases hf : isFinite v <;> simp_all

theorem isInfinity_eq (v : Enc) (h : isInfinity v = true) : v = signedInf (signField v) := by
  obtain ⟨he, hf⟩ := (isInfinity_iff v).1 h
  rw [signedInf_eq_compose, ← he, ← hf, compose_fields]

theorem isZero_eq (v : Enc) (h : isZero v = true) : v = signedZero (signField v) := by
  obtain ⟨he, hf⟩ := (isZero_iff v).1 h
  rw [signedZero_eq_compose, ← he, ← hf, compose_fields]

theorem isNaN_compose (s : Bit) (e : BitVec 4) (f : BitVec 6) :
    isNaN (compose s e f) = (e == 15#4 && f != 0#6) := by
  simp [isNaN, Config.expSpecial]

/-- `CANON_NAN` is a NaN whatever the free values are (D8). -/
@[simp] theorem isNaN_canonNan : isNaN Config.canonNan = true := by
  rw [canonNan_eq_compose, isNaN_compose]
  generalize Config.canonNanFrac = f
  revert f
  decide

@[simp] theorem isNaN_signedInf (s : Bit) : isNaN (signedInf s) = false := by
  revert s; decide

@[simp] theorem isNaN_signedZero (s : Bit) : isNaN (signedZero s) = false := by
  revert s; decide

/-! ## Negation in fields (R140) -/

/-- Flipping bit 10 flips the sign field. -/
@[simp] theorem signField_flip (v : Enc) : signField (v ^^^ 0x400#11) = signField v ^^^ 1#1 := by
  rw [signField, signField, BitVec.extractLsb'_xor]
  congr 1

@[simp] theorem expField_flip (v : Enc) : expField (v ^^^ 0x400#11) = expField v := by
  rw [expField, expField, BitVec.extractLsb'_xor,
    show BitVec.extractLsb' 6 4 0x400#11 = 0#4 from by decide, BitVec.xor_zero]

@[simp] theorem fracField_flip (v : Enc) : fracField (v ^^^ 0x400#11) = fracField v := by
  rw [fracField, fracField, BitVec.extractLsb'_xor,
    show BitVec.extractLsb' 0 6 0x400#11 = 0#6 from by decide, BitVec.xor_zero]

/-- A value equals the other with its sign flipped exactly when the two differ in the sign alone (R151, A4). -/
theorem eq_flip_iff (u v : Enc) :
    u = v ^^^ 0x400#11 ↔ signField u ≠ signField v ∧ expField u = expField v ∧ fracField u = fracField v := by
  have hbit : ∀ s t : Bit, s = t ^^^ 1#1 ↔ s ≠ t := by decide
  constructor
  · rintro rfl
    exact ⟨(hbit _ _).1 (signField_flip v), expField_flip v, fracField_flip v⟩
  · rintro ⟨hs, he, hf⟩
    exact enc_ext (by rw [signField_flip]; exact (hbit _ _).2 hs) (by simpa using he) (by simpa using hf)

end Sys2Proof.Laws
end

