-- ==== Sys2Proof/Laws/Loop.lean ====
section
/-!
SUPPORT. What a bounded `while` loop can do: it is some number of iterations of its body, at most its fuel, each
entered with the condition true; and it ends by its condition when the fuel is not used up.
-/

namespace Sys2Proof.Laws

open Sys2Proof.Machine

variable {α : Type} {c : α → Bool} {f : α → α}

@[simp] theorem whileLoop_zero (x : α) : whileLoop 0 c f x = x := rfl

theorem whileLoop_succ (n : Nat) (x : α) :
    whileLoop (n + 1) c f x = if c x then whileLoop n c f (f x) else x := rfl

/-- A loop whose condition is false at the start does nothing. -/
theorem whileLoop_of_false (n : Nat) {x : α} (h : c x = false) : whileLoop n c f x = x := by
  cases n with
  | zero => rfl
  | succ n => simp [whileLoop_succ, h]

/-- Everything a bounded loop can do. -/
theorem whileLoop_spec (n : Nat) (x : α) :
    ∃ k, k ≤ n ∧ whileLoop n c f x = f^[k] x ∧ (∀ j, j < k → c (f^[j] x) = true) ∧
      (k < n → c (f^[k] x) = false) := by
  induction n generalizing x with
  | zero => exact ⟨0, le_rfl, rfl, by simp, by simp⟩
  | succ n ih =>
    cases h : c x with
    | false => exact ⟨0, by omega, whileLoop_of_false _ h, by simp, by simp [h]⟩
    | true =>
      obtain ⟨k, hk, heq, hin, hout⟩ := ih (f x)
      refine ⟨k + 1, by omega, by simp [whileLoop_succ, h, heq], ?_, fun hlt => ?_⟩
      · rintro (_ | j) hj
        · exact h
        · exact hin j (by omega)
      · exact hout (by omega)

/-- A loop whose condition holds for exactly the first `k` iterations, `k` within the fuel, is `k` iterations. -/
theorem whileLoop_eq_iterate (n k : Nat) (x : α) (hk : k ≤ n) (hin : ∀ j, j < k → c (f^[j] x) = true)
    (hout : c (f^[k] x) = false) : whileLoop n c f x = f^[k] x := by
  obtain ⟨m, hm, heq, min, mout⟩ := whileLoop_spec (c := c) (f := f) n x
  have hmk : m = k := by
    rcases Nat.lt_trichotomy m k with h | h | h
    · have h1 := hin m h
      rw [mout (by omega)] at h1
      cases h1
    · exact h
    · have h1 := min k h
      rw [hout] at h1
      cases h1
  rw [heq, hmk]

end Sys2Proof.Laws
end

