-- ==== Sys2Proof/Laws/Split.lean ====
section
/-!
SUPPORT. The split number as one 64-bit number (spec/41_bridge_align.md R80 to R83): `SHR1` halves it, `SHL1`
doubles it, and repeated shifts divide and multiply by a power of two.
-/

namespace Sys2Proof.Laws

open Sys2Proof.Machine

/-- The two accumulators as one number, the fraction below the whole part: the magnitude of the split number
is `splitNum x × 2^(e - 32)` (R80). -/
def splitNum (x : Split) : Nat := x.w.toNat * 2 ^ 32 + x.f.toNat

theorem splitNum_lt (x : Split) : splitNum x < 2 ^ 64 := by
  have := x.w.isLt; have := x.f.isLt; unfold splitNum; omega

theorem splitNum_w (x : Split) : x.w.toNat = splitNum x / 2 ^ 32 := by
  have := x.f.isLt; unfold splitNum; omega

theorem splitNum_f (x : Split) : x.f.toNat = splitNum x % 2 ^ 32 := by
  have := x.f.isLt; unfold splitNum; omega

/-- Two split numbers with one number and one exponent are equal. -/
theorem split_ext {x y : Split} (hn : splitNum x = splitNum y) (he : x.e = y.e) : x = y := by
  obtain ⟨w, f, e⟩ := x
  obtain ⟨w', f', e'⟩ := y
  have hw : w = w' := BitVec.eq_of_toNat_eq (by have := splitNum_w ⟨w, f, e⟩; have := splitNum_w ⟨w', f', e'⟩; simp_all)
  have hf : f = f' := BitVec.eq_of_toNat_eq (by have := splitNum_f ⟨w, f, e⟩; have := splitNum_f ⟨w', f', e'⟩; simp_all)
  simp_all

@[simp] theorem shr1_e (x : Split) : (shr1 x).e = x.e + 1 := rfl

@[simp] theorem shl1_e (x : Split) : (shl1 x).e = x.e - 1 := rfl

/-- `SHR1` halves the split number, dropping bit 0 (R81). -/
theorem shr1_num (x : Split) : splitNum (shr1 x) = splitNum x / 2 := by
  obtain ⟨w, f, e⟩ := x
  have hb : (f >>> 1 ||| (w &&& 1#32) <<< 31).toNat = f.toNat / 2 + (w.toNat % 2) * 2 ^ 31 := by
    have hd : f >>> 1 &&& (w &&& 1#32) <<< 31 = 0#32 := by
      ext i hi
      simp only [BitVec.getElem_and, BitVec.getElem_ushiftRight, BitVec.getElem_shiftLeft, BitVec.getElem_zero]
      by_cases h : i < 31
      · simp [h]
      · have : i = 31 := by omega
        subst this
        simp
    rw [← BitVec.add_eq_or_of_and_eq_zero _ _ hd, BitVec.toNat_add]
    have h1 := f.isLt
    have h2 : ((w &&& 1#32) <<< 31).toNat = (w.toNat % 2) * 2 ^ 31 := by
      rw [BitVec.toNat_shiftLeft, BitVec.toNat_and]
      simp only [BitVec.toNat_ofNat, Nat.reducePow, Nat.reduceMod, Nat.and_one_is_mod, Nat.shiftLeft_eq]
      omega
    rw [h2, BitVec.toNat_ushiftRight, Nat.shiftRight_eq_div_pow]
    omega
  have hw : (w >>> 1).toNat = w.toNat / 2 := by rw [BitVec.toNat_ushiftRight, Nat.shiftRight_eq_div_pow]
  have := f.isLt
  simp only [splitNum, shr1, hb, hw]
  omega

/-- `SHL1` doubles the split number, dropping the top bit (R82). -/
theorem shl1_num (x : Split) : splitNum (shl1 x) = 2 * splitNum x % 2 ^ 64 := by
  obtain ⟨w, f, e⟩ := x
  have hb : (w <<< 1 ||| f >>> 31).toNat = w.toNat * 2 % 2 ^ 32 + f.toNat / 2 ^ 31 := by
    have hd : w <<< 1 &&& f >>> 31 = 0#32 := by
      ext i hi
      simp only [BitVec.getElem_and, BitVec.getElem_ushiftRight, BitVec.getElem_shiftLeft, BitVec.getElem_zero]
      by_cases h : i < 1
      · simp [h]
      · rw [BitVec.getLsbD_of_ge _ _ (by omega)]
        simp
    rw [← BitVec.add_eq_or_of_and_eq_zero _ _ hd, BitVec.toNat_add, BitVec.toNat_shiftLeft,
      BitVec.toNat_ushiftRight, Nat.shiftRight_eq_div_pow, Nat.shiftLeft_eq]
    have := f.isLt
    omega
  have hf : (f <<< 1).toNat = f.toNat * 2 % 2 ^ 32 := by
    rw [BitVec.toNat_shiftLeft, Nat.shiftLeft_eq]
  have := f.isLt
  have := w.isLt
  simp only [splitNum, shl1, hb, hf]
  omega

theorem shr1_iter_e (k : Nat) (x : Split) : (shr1^[k] x).e = x.e + k := by
  induction k with
  | zero => simp
  | succ k ih => rw [Function.iterate_succ_apply', shr1_e, ih]; omega

theorem shl1_iter_e (k : Nat) (x : Split) : (shl1^[k] x).e = x.e - k := by
  induction k with
  | zero => simp
  | succ k ih => rw [Function.iterate_succ_apply', shl1_e, ih]; omega

/-- `k` right shifts divide by `2^k`. -/
theorem shr1_iter_num (k : Nat) (x : Split) : splitNum (shr1^[k] x) = splitNum x / 2 ^ k := by
  induction k with
  | zero => simp
  | succ k ih => rw [Function.iterate_succ_apply', shr1_num, ih, Nat.div_div_eq_div_mul, Nat.pow_succ]

/-- `k` left shifts multiply by `2^k`, as long as the product fits the two accumulators. -/
theorem shl1_iter_num (k : Nat) (x : Split) (h : splitNum x * 2 ^ k < 2 ^ 64) :
    splitNum (shl1^[k] x) = splitNum x * 2 ^ k := by
  induction k with
  | zero => simp
  | succ k ih =>
    have hk : splitNum x * 2 ^ (k + 1) = 2 * (splitNum x * 2 ^ k) := by rw [Nat.pow_succ]; ring
    rw [Function.iterate_succ_apply', shl1_num, ih (by omega), hk]
    omega

/-- The six top fraction bits, as a number (R105). -/
theorem topFrac_toNat (x : Split) : (topFrac x).toNat = splitNum x / 2 ^ 26 % 64 := by
  have := x.f.isLt
  rw [topFrac, BitVec.extractLsb'_toNat, Nat.shiftRight_eq_div_pow, splitNum_f]
  omega

end Sys2Proof.Laws
end

