-- ==== Sys2Proof/Laws/Align.lean ====
section
/-!
SUPPORT. Extraction and alignment (spec/41_bridge_align.md R84 to R95): what `extract`, the two phases and
`alignPair` answer, as arithmetic on natural numbers.
-/

namespace Sys2Proof.Laws

open Sys2Proof.Machine

/-! ## Extraction (R84) -/

theorem leadBit_le (v : Enc) : leadBit v ≤ 1 := by unfold leadBit; split <;> omega

theorem significand_lt (v : Enc) : significand v < 128 := by
  have := leadBit_le v; have := (fracField v).isLt; unfold significand; omega

/-- The unbiased exponent of any pattern, specials included, is in -6..8 (R84, R86). -/
theorem unbiasedExp_range (v : Enc) : -6 ≤ unbiasedExp v ∧ unbiasedExp v ≤ 8 := by
  have h := (expField v).isLt
  unfold unbiasedExp
  split
  · simp [Config.denormExp]
  · next hz =>
    have h0 : (expField v).toNat ≠ 0 := fun hc => hz (by
      rw [beq_iff_eq]; exact BitVec.eq_of_toNat_eq (by simpa using hc))
    simp only [Config.bias]; omega

/-- A finite value has an unbiased exponent in -6..7 (R51). -/
theorem unbiasedExp_finite (v : Enc) (hf : isFinite v = true) : unbiasedExp v ≤ 7 := by
  have h := (expField v).isLt
  have hne : (expField v).toNat ≠ 15 := fun hc => (isFinite_iff v).1 hf (BitVec.eq_of_toNat_eq (by simpa using hc))
  unfold unbiasedExp
  split
  · simp [Config.denormExp]
  · simp only [Config.bias]; omega

/-- The significand of an operand with exponent above -6 has its leading bit (R84). -/
theorem significand_ge (v : Enc) (h : -6 < unbiasedExp v) : 64 ≤ significand v := by
  have hl : leadBit v = 1 := by
    unfold leadBit
    split
    · next hz => simp [unbiasedExp, hz, Config.denormExp] at h
    · rfl
  unfold significand; omega

@[simp] theorem extract_e (v : Enc) : (extract v).e = unbiasedExp v := rfl

/-- The extracted split number is the significand with its bit 0 at fraction bit 26 (R84). -/
theorem extract_num (v : Enc) : splitNum (extract v) = significand v * 2 ^ 26 := by
  have hl := leadBit_le v
  have hf := (fracField v).isLt
  have h1 : (BitVec.ofNat 32 (leadBit v)).toNat = leadBit v := by rw [BitVec.toNat_ofNat]; omega
  have h2 : ((fracField v).setWidth 32 <<< 26).toNat = (fracField v).toNat * 2 ^ 26 := by
    rw [BitVec.toNat_shiftLeft, BitVec.toNat_setWidth, Nat.shiftLeft_eq]; omega
  simp only [splitNum, extract, h1, h2, significand]
  omega

/-! ## Phase 1 (R88) -/

theorem iterate_fst {α β : Type} (f : α → α) (k : Nat) (p : α × β) :
    (fun q : α × β => (f q.1, q.2))^[k] p = (f^[k] p.1, p.2) := by
  induction k with
  | zero => rfl
  | succ k ih => rw [Function.iterate_succ_apply', ih, Function.iterate_succ_apply']

theorem iterate_snd {α β : Type} (f : β → β) (k : Nat) (p : α × β) :
    (fun q : α × β => (q.1, f q.2))^[k] p = (p.1, f^[k] p.2) := by
  induction k with
  | zero => rfl
  | succ k ih => rw [Function.iterate_succ_apply', ih, Function.iterate_succ_apply']

theorem iterate_both {α β : Type} (f : α → α) (g : β → β) (k : Nat) (p : α × β) :
    (fun q : α × β => (f q.1, g q.2))^[k] p = (f^[k] p.1, g^[k] p.2) := by
  induction k with
  | zero => rfl
  | succ k ih => rw [Function.iterate_succ_apply', ih, Function.iterate_succ_apply', Function.iterate_succ_apply']

/-- Phase 1 shifts the operand with the smaller exponent right by the difference, and no other (R88). -/
theorem equalizeExponents_eq (x y : Split) (h1 : y.e - x.e ≤ 14) (h2 : x.e - y.e ≤ 14) :
    equalizeExponents (x, y) = (shr1^[(y.e - x.e).toNat] x, shr1^[(x.e - y.e).toNat] y) := by
  have hfirst : whileLoop 14 (fun q : Split × Split => decide (q.1.e < q.2.e)) (fun q => (shr1 q.1, q.2)) (x, y)
      = (shr1^[(y.e - x.e).toNat] x, y) := by
    rw [whileLoop_eq_iterate 14 (y.e - x.e).toNat (x, y) (by omega), iterate_fst]
    · intro j hj
      rw [iterate_fst]
      simp only [shr1_iter_e, decide_eq_true_eq]; omega
    · rw [iterate_fst]
      simp only [shr1_iter_e, decide_eq_false_iff_not]; omega
  unfold equalizeExponents
  simp only [hfirst]
  rw [whileLoop_eq_iterate 14 (x.e - y.e).toNat _ (by omega), iterate_snd]
  · intro j hj
    rw [iterate_snd]
    simp only [shr1_iter_e, decide_eq_true_eq]; omega
  · rw [iterate_snd]
    simp only [shr1_iter_e, decide_eq_false_iff_not]; omega

/-! ## Phase 2 (R89) -/

theorem fraction_ne_zero_iff (x : Split) : (x.f != 0#32) = true ↔ ¬ 2 ^ 32 ∣ splitNum x := by
  rw [bne_iff_ne, ne_eq, not_iff_not, Nat.dvd_iff_mod_eq_zero, ← splitNum_f]
  exact ⟨fun h => by simp [h], fun h => BitVec.eq_of_toNat_eq (by simpa using h)⟩

/-- Phase 2 on split numbers small enough that nothing is dropped, and which `n ≤ 31` left shifts make whole: it
makes the least number `k` of left shifts, on both operands, that leaves both fractions zero (R89). -/
theorem clearFractions_spec (x y : Split) (n : Nat) (hn : n ≤ 31)
    (hx : splitNum x * 2 ^ n < 2 ^ 64) (hy : splitNum y * 2 ^ n < 2 ^ 64)
    (dx : 2 ^ 32 ∣ splitNum x * 2 ^ n) (dy : 2 ^ 32 ∣ splitNum y * 2 ^ n) :
    ∃ k, k ≤ n ∧ clearFractions (x, y) = (shl1^[k] x, shl1^[k] y) ∧
      2 ^ 32 ∣ splitNum x * 2 ^ k ∧ 2 ^ 32 ∣ splitNum y * 2 ^ k ∧
      (∀ j, j < k → ¬ (2 ^ 32 ∣ splitNum x * 2 ^ j ∧ 2 ^ 32 ∣ splitNum y * 2 ^ j)) := by
  have fit : ∀ (z : Split), splitNum z * 2 ^ n < 2 ^ 64 → ∀ j, j ≤ n → splitNum z * 2 ^ j < 2 ^ 64 :=
    fun z hz j hj => lt_of_le_of_lt (Nat.mul_le_mul_left _ (Nat.pow_le_pow_right (by omega) hj)) hz
  have cond : ∀ j, j ≤ n →
      (((shl1^[j] x).f != 0#32 || (shl1^[j] y).f != 0#32) = true ↔
        ¬ (2 ^ 32 ∣ splitNum x * 2 ^ j ∧ 2 ^ 32 ∣ splitNum y * 2 ^ j)) := by
    intro j hj
    rw [Bool.or_eq_true, fraction_ne_zero_iff, fraction_ne_zero_iff,
      shl1_iter_num _ _ (fit x hx j hj), shl1_iter_num _ _ (fit y hy j hj), not_and_or]
  obtain ⟨k, hk, heq, hin, hout⟩ := whileLoop_spec
    (c := fun q : Split × Split => q.1.f != 0#32 || q.2.f != 0#32)
    (f := fun q => (shl1 q.1, shl1 q.2)) 32 (x, y)
  simp only [iterate_both] at heq hin hout
  have hkn : k ≤ n := by
    by_contra hc
    exact (cond n le_rfl).1 (hin n (by omega)) ⟨dx, dy⟩
  have hend : ¬ (((shl1^[k] x).f != 0#32 || (shl1^[k] y).f != 0#32) = true) := by
    rw [hout (by omega)]; simp
  have hd := not_not.1 ((not_congr (cond k hkn)).1 hend)
  exact ⟨k, hkn, heq, hd.1, hd.2, fun j hj => (cond j (by omega)).1 (hin j hj)⟩

/-! ## ALIGN (R87, R90, R94) -/

/-- Halving a product with a power of two that 2^32 does not divide, but divides after one more doubling, leaves
an odd quotient. -/
theorem odd_of_last_shift (n k m : Nat) (hm : m * 2 ^ 32 = n * 2 ^ (k + 1)) (hk : ¬ 2 ^ 32 ∣ n * 2 ^ k) :
    m % 2 = 1 := by
  by_contra hc
  apply hk
  obtain ⟨r, rfl⟩ : 2 ∣ m := by omega
  refine ⟨r, ?_⟩
  have h2 : n * 2 ^ (k + 1) = 2 * (n * 2 ^ k) := by rw [Nat.pow_succ]; ring
  rw [h2] at hm
  omega

theorem lead_of_whole {v : Enc} (h : 2 ^ 32 ∣ significand v * 2 ^ 26) : significand v = 0 ∨ significand v = 64 := by
  have := significand_lt v
  omega

/-- What the two loops of `Align` do to the extracted operands (R88, R89), the exponents being `p - 6` and `q - 6`:
phase 1 shifts the operand with the smaller exponent right without loss, phase 2 shifts both left `k` times, and
`k` is the least number of shifts that clears both fractions. -/
theorem align_loops (a b : Enc) (p q : Nat) (hp : unbiasedExp a = p - 6) (hq : unbiasedExp b = q - 6) :
    equalizeExponents (extract a, extract b) = (shr1^[q - p] (extract a), shr1^[p - q] (extract b)) ∧
    splitNum (shr1^[q - p] (extract a)) = significand a * 2 ^ (26 - (q - p)) ∧
    splitNum (shr1^[p - q] (extract b)) = significand b * 2 ^ (26 - (p - q)) ∧
    ∃ k, k ≤ 6 + (max p q - min p q) ∧
      clearFractions (shr1^[q - p] (extract a), shr1^[p - q] (extract b)) =
        (shl1^[k] (shr1^[q - p] (extract a)), shl1^[k] (shr1^[p - q] (extract b))) ∧
      splitNum (shl1^[k] (shr1^[q - p] (extract a))) = significand a * 2 ^ (26 - (q - p)) * 2 ^ k ∧
      splitNum (shl1^[k] (shr1^[p - q] (extract b))) = significand b * 2 ^ (26 - (p - q)) * 2 ^ k ∧
      2 ^ 32 ∣ significand a * 2 ^ (26 - (q - p)) * 2 ^ k ∧ 2 ^ 32 ∣ significand b * 2 ^ (26 - (p - q)) * 2 ^ k ∧
      ∀ j, j < k → ¬ (2 ^ 32 ∣ significand a * 2 ^ (26 - (q - p)) * 2 ^ j ∧
        2 ^ 32 ∣ significand b * 2 ^ (26 - (p - q)) * 2 ^ j) := by
  obtain ⟨la, ua⟩ := unbiasedExp_range a
  obtain ⟨lb, ub⟩ := unbiasedExp_range b
  have sa := significand_lt a
  have sb := significand_lt b
  have hph1 := equalizeExponents_eq (extract a) (extract b) (by simp; omega) (by simp; omega)
  have hka : ((extract b).e - (extract a).e).toNat = q - p := by simp [hp, hq]
  have hkb : ((extract a).e - (extract b).e).toNat = p - q := by simp [hp, hq]
  rw [hka, hkb] at hph1
  have shifted : ∀ (v : Enc) (k : Nat), k ≤ 14 → splitNum (shr1^[k] (extract v)) = significand v * 2 ^ (26 - k) := by
    intro v k hk
    rw [shr1_iter_num, extract_num]
    have : (2 : Nat) ^ 26 = 2 ^ (26 - k) * 2 ^ k := by rw [← Nat.pow_add]; congr 1; omega
    rw [this, ← Nat.mul_assoc, Nat.mul_div_cancel _ (by positivity)]
  have na := shifted a (q - p) (by omega)
  have nb := shifted b (p - q) (by omega)
  have whole : ∀ (S k n : Nat), k ≤ 14 → 6 + k ≤ n → 2 ^ 32 ∣ S * 2 ^ (26 - k) * 2 ^ n := by
    intro S k n hk hn
    rw [Nat.mul_assoc, ← Nat.pow_add]
    exact Dvd.dvd.mul_left (Nat.pow_dvd_pow 2 (by omega)) S
  have small : ∀ (S k n : Nat), S < 128 → n ≤ 20 → S * 2 ^ (26 - k) * 2 ^ n < 2 ^ 64 := by
    intro S k n hS hn
    calc S * 2 ^ (26 - k) * 2 ^ n ≤ 127 * 2 ^ 26 * 2 ^ 20 :=
          Nat.mul_le_mul (Nat.mul_le_mul (by omega) (Nat.pow_le_pow_right (by omega) (by omega)))
            (Nat.pow_le_pow_right (by omega) hn)
      _ < 2 ^ 64 := by norm_num
  obtain ⟨k, hkn, hcl, da, db, hmin⟩ := clearFractions_spec (shr1^[q - p] (extract a)) (shr1^[p - q] (extract b))
    (6 + (max p q - min p q)) (by omega)
    (by rw [na]; exact small _ _ _ sa (by omega)) (by rw [nb]; exact small _ _ _ sb (by omega))
    (by rw [na]; exact whole _ _ _ (by omega) (by omega)) (by rw [nb]; exact whole _ _ _ (by omega) (by omega))
  rw [na] at da hmin
  rw [nb] at db hmin
  refine ⟨hph1, na, nb, k, hkn, hcl, ?_, ?_, da, db, hmin⟩
  · rw [shl1_iter_num _ _ (by rw [na]; exact small _ _ _ sa (by omega)), na]
  · rw [shl1_iter_num _ _ (by rw [nb]; exact small _ _ _ sb (by omega)), nb]

/-- Everything `alignPair` answers, for all 2048 × 2048 operand pairs (R87, R90, R91, R94): the two mantissas at
the shared exponent are the two magnitudes exactly (in units of 2⁻¹²), the exponent lies between -12 and the larger
operand exponent, and the exponent is as large as it can be: a mantissa is odd, unless both operands are zero. -/
theorem alignPair_spec (a b : Enc) :
    -12 ≤ (alignPair a b).e ∧ (alignPair a b).e ≤ max (unbiasedExp a) (unbiasedExp b) ∧
    (alignPair a b).m1.toNat * 2 ^ ((alignPair a b).e + 12).toNat = significand a * 2 ^ (unbiasedExp a + 6).toNat ∧
    (alignPair a b).m2.toNat * 2 ^ ((alignPair a b).e + 12).toNat = significand b * 2 ^ (unbiasedExp b + 6).toNat ∧
    ((alignPair a b).m1.toNat % 2 = 1 ∨ (alignPair a b).m2.toNat % 2 = 1 ∨
      (significand a = 0 ∧ significand b = 0 ∧ (alignPair a b).e = -6)) := by
  obtain ⟨la, ua⟩ := unbiasedExp_range a
  obtain ⟨lb, ub⟩ := unbiasedExp_range b
  obtain ⟨p, hp⟩ : ∃ p : Nat, unbiasedExp a = p - 6 := ⟨(unbiasedExp a + 6).toNat, by omega⟩
  obtain ⟨q, hq⟩ : ∃ q : Nat, unbiasedExp b = q - 6 := ⟨(unbiasedExp b + 6).toNat, by omega⟩
  obtain ⟨hph1, na, nb, k, hkn, hcl, ca, cb, da, db, hmin⟩ := align_loops a b p q hp hq
  have he : (alignPair a b).e = max (unbiasedExp a) (unbiasedExp b) - k := by
    simp only [alignPair, hph1, hcl, shl1_iter_e, shr1_iter_e, extract_e]
    omega
  have hm1 : (alignPair a b).m1.toNat * 2 ^ 32 = significand a * 2 ^ (26 - (q - p)) * 2 ^ k := by
    simp only [alignPair, hph1, hcl]
    rw [splitNum_w, ca, Nat.div_mul_cancel da]
  have hm2 : (alignPair a b).m2.toNat * 2 ^ 32 = significand b * 2 ^ (26 - (p - q)) * 2 ^ k := by
    simp only [alignPair, hph1, hcl]
    rw [splitNum_w, cb, Nat.div_mul_cancel db]
  have hE : ((alignPair a b).e + 12).toNat = max p q + 6 - k := by rw [he]; omega
  -- a mantissa at the shared exponent is the operand's magnitude
  have exact : ∀ (m S d r : Nat), m * 2 ^ 32 = S * 2 ^ (26 - d) * 2 ^ k → d ≤ 14 → r + d = max p q →
      m * 2 ^ (max p q + 6 - k) = S * 2 ^ r := by
    intro m S d r hm hd hr
    have h32 : m * 2 ^ (max p q + 6 - k) * 2 ^ 32 = S * 2 ^ r * 2 ^ 32 := by
      have e1 : (2 : Nat) ^ (26 - d) * 2 ^ k * 2 ^ (max p q + 6 - k) = 2 ^ r * 2 ^ 32 := by
        rw [← Nat.pow_add, ← Nat.pow_add, ← Nat.pow_add]; congr 1; omega
      calc m * 2 ^ (max p q + 6 - k) * 2 ^ 32 = m * 2 ^ 32 * 2 ^ (max p q + 6 - k) := by ring
        _ = S * (2 ^ (26 - d) * 2 ^ k * 2 ^ (max p q + 6 - k)) := by rw [hm]; ring
        _ = S * 2 ^ r * 2 ^ 32 := by rw [e1]; ring
    exact Nat.eq_of_mul_eq_mul_right (by positivity) h32
  refine ⟨by rw [he]; omega, by rw [he]; omega, ?_, ?_, ?_⟩
  · rw [hE, exact _ _ (q - p) p hm1 (by omega) (by omega), hp]; congr 2; omega
  · rw [hE, exact _ _ (p - q) q hm2 (by omega) (by omega), hq]; congr 2; omega
  · cases k with
    | succ k =>
      by_cases h1 : 2 ^ 32 ∣ significand a * 2 ^ (26 - (q - p)) * 2 ^ k
      · exact Or.inr (Or.inl (odd_of_last_shift _ k _ hm2 (fun h2 => hmin k (by omega) ⟨h1, h2⟩)))
      · exact Or.inl (odd_of_last_shift _ k _ hm1 h1)
    | zero =>
      -- no shift in phase 2: the operand with the larger exponent has a zero fraction
      simp only [Nat.pow_zero, Nat.mul_one] at hm1 hm2 da db
      rcases Nat.lt_trichotomy p q with hlt | heq | hgt
      · have h64 := significand_ge b (by omega)
        rw [show 26 - (p - q) = 26 from by omega] at hm2 db
        rcases lead_of_whole db with h | h
        · omega
        · right; left; rw [h] at hm2; omega
      · subst heq
        rw [show 26 - (p - p) = 26 from by omega] at hm1 hm2 da db
        rcases lead_of_whole da with h | h
        · rcases lead_of_whole db with h' | h'
          · right; right
            refine ⟨h, h', ?_⟩
            rw [he]
            have := significand_ge a
            omega
          · right; left; rw [h'] at hm2; omega
        · left; rw [h] at hm1; omega
      · have h64 := significand_ge a (by omega)
        rw [show 26 - (q - p) = 26 from by omega] at hm1 da
        rcases lead_of_whole da with h | h
        · omega
        · left; rw [h] at hm1; omega

/-! ## The exponent on its port (R31, R94) -/

/-- An integer that fits eight bits is read back from its port. -/
theorem expPort_toInt (e : Int) (h1 : -128 ≤ e) (h2 : e ≤ 127) : (expPort e).toInt = e := by
  rw [expPort, BitVec.toInt_ofInt]
  simp only [Int.bmod]; omega

/-- The shared exponent always fits its port (R94). -/
@[simp] theorem expPort_alignPair (a b : Enc) : (expPort (alignPair a b).e).toInt = (alignPair a b).e := by
  obtain ⟨h1, h2, -⟩ := alignPair_spec a b
  have := unbiasedExp_range a
  have := unbiasedExp_range b
  exact expPort_toInt _ (by omega) (by omega)

end Sys2Proof.Laws
end

