-- ==== Sys2Proof/Laws/Reassemble.lean ====
section
/-!
SUPPORT. Normalization and composition (spec/42_bridge_reassemble.md R101 to R106; spec/43_converters.md R125
to R128): what the loops, `reassemble` and `n2fGeneral` answer, as arithmetic on natural numbers.
-/

namespace Sys2Proof.Laws

open Sys2Proof.Machine

/-- Shifting right until the whole part is 1 makes `p` shifts, `p` the position of the whole part's leading bit
(R102). -/
theorem normalizeRight_eq (x : Split) (p : Nat) (hlo : 2 ^ p ≤ x.w.toNat) (hhi : x.w.toNat < 2 ^ (p + 1)) :
    normalizeRight x = shr1^[p] x := by
  have hp : p ≤ 31 := by
    by_contra hc
    have := Nat.pow_le_pow_right (n := 2) (by omega) (show 32 ≤ p by omega)
    have := x.w.isLt
    omega
  have hw : ∀ j, (shr1^[j] x).w.toNat = x.w.toNat / 2 ^ j := by
    intro j
    rw [splitNum_w, shr1_iter_num, Nat.div_div_eq_div_mul, Nat.mul_comm, ← Nat.div_div_eq_div_mul, ← splitNum_w]
  refine whileLoop_eq_iterate 31 p x hp ?_ ?_
  · intro j hj
    rw [decide_eq_true_eq, hw]
    have h1 : 2 ^ (j + 1) ≤ x.w.toNat := le_trans (Nat.pow_le_pow_right (by omega) hj) hlo
    have : 2 ≤ x.w.toNat / 2 ^ j := by
      rw [Nat.le_div_iff_mul_le (by positivity), Nat.mul_comm, ← Nat.pow_succ]; exact h1
    omega
  · rw [decide_eq_false_iff_not, hw]
    have : x.w.toNat / 2 ^ p < 2 := by
      rw [Nat.div_lt_iff_lt_mul (by positivity), Nat.mul_comm, ← Nat.pow_succ]; exact hhi
    omega

/-- A whole part of at most 1 is left as it is (R102, R125). -/
theorem normalizeRight_of_le (x : Split) (h : x.w.toNat ≤ 1) : normalizeRight x = x :=
  whileLoop_of_false _ (by simpa using h)

/-- The denormal restart makes `-6 - e` shifts (R104). -/
theorem denormalizeRight_eq (x : Split) (n : Nat) (hn : n ≤ 122) (he : x.e = -6 - n) :
    denormalizeRight x = shr1^[n] x := by
  refine whileLoop_eq_iterate 122 n x hn ?_ ?_
  · intro j hj
    simp only [shr1_iter_e, Config.denormExp, he, bne_iff_ne]; omega
  · simp only [shr1_iter_e, Config.denormExp, he, bne_eq_false_iff_eq]; omega

/-- Shifting left until the whole part is 1, from a whole part of 0, makes as many shifts as bring the leading bit
of the fraction into the whole part (R125). -/
theorem normalizeLeft_eq (x : Split) (k : Nat) (hk : k ≤ 32) (hlo : 2 ^ 32 ≤ splitNum x * 2 ^ k)
    (hhi : splitNum x * 2 ^ k < 2 ^ 33) : normalizeLeft x = shl1^[k] x := by
  have fit : ∀ j, j ≤ k → splitNum x * 2 ^ j ≤ splitNum x * 2 ^ k :=
    fun j hj => Nat.mul_le_mul_left _ (Nat.pow_le_pow_right (by omega) hj)
  have hw : ∀ j, j ≤ k → (shl1^[j] x).w.toNat = splitNum x * 2 ^ j / 2 ^ 32 := by
    intro j hj
    rw [splitNum_w, shl1_iter_num _ _ (by have := fit j hj; omega)]
  have zero_iff : ∀ w : Acc, (w == 0#32) = true ↔ w.toNat = 0 := by
    intro w
    rw [beq_iff_eq]
    exact ⟨fun h => by simp [h], fun h => BitVec.eq_of_toNat_eq (by simpa using h)⟩
  refine whileLoop_eq_iterate 32 k x hk ?_ ?_
  · intro j hj
    rw [zero_iff, hw j (by omega)]
    have : splitNum x * 2 ^ (j + 1) ≤ splitNum x * 2 ^ k := fit (j + 1) hj
    rw [Nat.pow_succ, ← Nat.mul_assoc] at this
    omega
  · have := hw k le_rfl
    have hne : ¬ ((shl1^[k] x).w == 0#32) = true := by rw [zero_iff]; omega
    simpa using hne

/-- The denormal restart of `N2F` makes six shifts (R126). -/
theorem denormalizeLeft_eq (x : Split) (he : x.e = 0) : denormalizeLeft x = shl1^[6] x := by
  refine whileLoop_eq_iterate 6 6 x (by omega) ?_ ?_
  · intro j hj
    simp only [shl1_iter_e, Config.denormExp, he, bne_iff_ne]; omega
  · simp only [shl1_iter_e, Config.denormExp, he, bne_eq_false_iff_eq]; omega

/-! ## REASM (R101 to R106) -/

theorem reassemble_zero (x0 : Int) (s : Bit) : reassemble 0#32 x0 s = signedZero s := by
  simp [reassemble]

/-- The start of the loops: the mantissa as whole part, no fraction (R102). -/
theorem splitNum_start (m : Acc) (x0 : Int) : splitNum { w := m, f := 0#32, e := x0 } = m.toNat * 2 ^ 32 := by
  simp [splitNum]

theorem start_shifted (m p : Nat) :
    m * 2 ^ 32 / 2 ^ p / 2 ^ 26 = m * 2 ^ 6 / 2 ^ p := by
  rw [Nat.div_div_eq_div_mul, show (2 : Nat) ^ 32 = 2 ^ 6 * 2 ^ 26 from by norm_num, ← Nat.mul_assoc,
    Nat.mul_div_mul_right _ _ (by positivity)]

/-- The three general rows of R106, from the position `p` of the mantissa's leading bit: overflow (R103), the
denormal restart (R104), and the normal composition (R105). -/
theorem reassemble_eq (m0 : Acc) (x0 : Int) (s : Bit) (p : Nat) (hx : -128 ≤ x0)
    (hlo : 2 ^ p ≤ m0.toNat) (hhi : m0.toNat < 2 ^ (p + 1)) :
    reassemble m0 x0 s =
      if 8 ≤ x0 + p then signedInf s
      else if x0 + p ≤ -7 then
        compose s 0#4 (BitVec.ofNat 6 (m0.toNat * 2 ^ 6 / 2 ^ (-6 - x0).toNat))
      else compose s (BitVec.ofInt 4 (x0 + p + 7)) (BitVec.ofNat 6 (m0.toNat * 2 ^ 6 / 2 ^ p - 64)) := by
  have hne : (m0 == 0#32) = false := by
    rw [beq_eq_false_iff_ne]; rintro rfl
    have : 0 < 2 ^ p := by positivity
    simp at hlo
  have hp : p ≤ 31 := by
    by_contra hc
    have := Nat.pow_le_pow_right (n := 2) (by omega) (show 32 ≤ p by omega)
    have := m0.isLt
    omega
  have hnorm := normalizeRight_eq { w := m0, f := 0#32, e := x0 } p hlo hhi
  have he : (normalizeRight { w := m0, f := 0#32, e := x0 }).e = x0 + p := by rw [hnorm, shr1_iter_e]
  unfold reassemble
  simp only [hne, he, Config.bias, Bool.false_eq_true, if_false]
  by_cases h1 : 8 ≤ x0 + p
  · rw [if_pos (by omega), if_pos h1]
  · rw [if_neg (by omega), if_neg h1]
    by_cases h2 : x0 + p ≤ -7
    · rw [if_pos (by omega), if_pos h2]
      congr 1
      have hn := denormalizeRight_eq { w := m0, f := 0#32, e := x0 } (-6 - x0).toNat (by omega) (by simp; omega)
      apply BitVec.eq_of_toNat_eq
      rw [topFrac_toNat, hn, shr1_iter_num, splitNum_start, start_shifted, BitVec.toNat_ofNat]
    · rw [if_neg (by omega), if_neg h2]
      congr 1
      apply BitVec.eq_of_toNat_eq
      rw [topFrac_toNat, hnorm, shr1_iter_num, splitNum_start, start_shifted, BitVec.toNat_ofNat]
      have hlo' : 64 ≤ m0.toNat * 2 ^ 6 / 2 ^ p := by
        rw [Nat.le_div_iff_mul_le (by positivity)]; omega
      have hhi' : m0.toNat * 2 ^ 6 / 2 ^ p < 128 := by
        rw [Nat.div_lt_iff_lt_mul (by positivity)]
        rw [Nat.pow_succ] at hhi; omega
      omega

/-- The position of the leading bit of a non-zero mantissa. -/
theorem leading_bit (m : Nat) (h : m ≠ 0) : 2 ^ Nat.log2 m ≤ m ∧ m < 2 ^ (Nat.log2 m + 1) :=
  ⟨Nat.log2_self_le h, Nat.lt_log2_self⟩

/-- `REASM` never answers a NaN: every result is a zero, an Infinity, or finite (R106). -/
theorem reassemble_not_nan (m0 : Acc) (x0 : Int) (s : Bit) (hx : -128 ≤ x0) :
    isNaN (reassemble m0 x0 s) = false := by
  by_cases h0 : m0 = 0#32
  · rw [h0, reassemble_zero]; exact isNaN_signedZero s
  · obtain ⟨hlo, hhi⟩ := leading_bit m0.toNat (fun hc => h0 (BitVec.eq_of_toNat_eq (by simpa using hc)))
    rw [reassemble_eq m0 x0 s _ hx hlo hhi]
    split
    · exact isNaN_signedInf s
    · split
      · rw [isNaN_compose]; rfl
      · have hne : ∀ k : Int, 1 ≤ k → k ≤ 14 → BitVec.ofInt 4 k ≠ 15#4 := by
          intro k h1 h2
          interval_cases k <;> decide
        rw [isNaN_compose, Bool.and_eq_false_iff, beq_eq_false_iff_ne]
        exact Or.inl (hne _ (by omega) (by omega))

/-- `REASM` puts its sign argument at bit 10 in every case (R105, R106). -/
theorem signField_reassemble (m0 : Acc) (x0 : Int) (s : Bit) : signField (reassemble m0 x0 s) = s := by
  unfold reassemble
  split
  · rw [signedZero_eq_compose, signField_compose]
  · simp only
    split
    · rw [signedInf_eq_compose, signField_compose]
    · split <;> rw [signField_compose]

/-! ## N2F (R125 to R128) -/

/-- The leading-bit position `P + 32` of the number `whole × 2^32 + frac` fixes the normal row of R128. -/
theorem n2fGeneral_eq (neg : Bit) (whole frac : Acc) (P : Nat) (hP : P ≤ 39)
    (hlo : 2 ^ P ≤ whole.toNat * 2 ^ 32 + frac.toNat) (hhi : whole.toNat * 2 ^ 32 + frac.toNat < 2 ^ (P + 1)) :
    n2fGeneral neg whole frac =
      if P ≤ 25 then compose neg 0#4 (BitVec.ofNat 6 (frac.toNat / 2 ^ 20))
      else compose neg (BitVec.ofNat 4 (P - 25))
        (BitVec.ofNat 6 ((whole.toNat * 2 ^ 32 + frac.toNat) * 2 ^ 6 / 2 ^ P - 64)) := by
  have hf := frac.isLt
  have hnum : splitNum { w := whole, f := frac, e := 0 } = whole.toNat * 2 ^ 32 + frac.toNat := rfl
  -- the normalized pair: `whole × 2^32 + frac` with its leading bit at bit 32
  have hnorm : ∃ x, normalizeLeft (normalizeRight { w := whole, f := frac, e := 0 }) = x ∧ x.e = (P : Int) - 32 ∧
      splitNum x / 2 ^ 26 = (whole.toNat * 2 ^ 32 + frac.toNat) * 2 ^ 6 / 2 ^ P := by
    refine ⟨_, rfl, ?_⟩
    by_cases h32 : 32 ≤ P
    · obtain ⟨p, rfl⟩ := Nat.exists_eq_add_of_le h32
      have hw1 : 2 ^ p ≤ whole.toNat := by
        rw [Nat.pow_add] at hlo
        by_contra hc
        have : (whole.toNat + 1) * 2 ^ 32 ≤ 2 ^ p * 2 ^ 32 := Nat.mul_le_mul_right _ (by omega)
        omega
      have hw2 : whole.toNat < 2 ^ (p + 1) := by
        rw [show 32 + p + 1 = 32 + (p + 1) from by omega, Nat.pow_add] at hhi
        by_contra hc
        have : 2 ^ (p + 1) * 2 ^ 32 ≤ whole.toNat * 2 ^ 32 := Nat.mul_le_mul_right _ (by omega)
        omega
      have hr := normalizeRight_eq { w := whole, f := frac, e := 0 } p hw1 hw2
      have hone : (shr1^[p] { w := whole, f := frac, e := 0 }).w ≠ 0#32 := by
        intro hc
        have h1 := splitNum_w (shr1^[p] { w := whole, f := frac, e := 0 })
        rw [hc, shr1_iter_num, hnum] at h1
        have : 2 ^ 32 ≤ (whole.toNat * 2 ^ 32 + frac.toNat) / 2 ^ p := by
          rw [Nat.le_div_iff_mul_le (by positivity), ← Nat.pow_add]; exact hlo
        rw [BitVec.toNat_zero] at h1
        omega
      have hl : normalizeLeft (shr1^[p] { w := whole, f := frac, e := 0 }) = shr1^[p] { w := whole, f := frac, e := 0 } :=
        whileLoop_of_false _ (by simpa using hone)
      rw [hr, hl, shr1_iter_e, shr1_iter_num, hnum]
      refine ⟨by push_cast; ring, ?_⟩
      rw [Nat.div_div_eq_div_mul, show 32 + p = p + 26 + 6 from by omega, Nat.pow_add 2 (p + 26), Nat.pow_add 2 p,
        Nat.mul_div_mul_right _ _ (by positivity)]
    · obtain ⟨k, hk⟩ := Nat.exists_eq_add_of_le (show P ≤ 32 by omega)
      have hw0 : whole.toNat = 0 := by
        by_contra hc
        have : 2 ^ (P + 1) ≤ 2 ^ 32 := Nat.pow_le_pow_right (by omega) (by omega)
        omega
      have hr := normalizeRight_of_le { w := whole, f := frac, e := 0 } (by simp [hw0])
      have e1 : 2 ^ P * 2 ^ k = 2 ^ 32 := by rw [← Nat.pow_add, ← hk]
      have e2 : 2 ^ (P + 1) * 2 ^ k = 2 ^ 33 := by rw [← Nat.pow_add]; congr 1; omega
      have hk1 : 2 ^ 32 ≤ splitNum { w := whole, f := frac, e := 0 } * 2 ^ k := by
        rw [hnum]; exact le_of_eq_of_le e1.symm (Nat.mul_le_mul_right _ hlo)
      have hk2 : splitNum { w := whole, f := frac, e := 0 } * 2 ^ k < 2 ^ 33 := by
        rw [hnum]; exact lt_of_lt_of_eq (Nat.mul_lt_mul_of_pos_right hhi (by positivity)) e2
      rw [hr, normalizeLeft_eq _ k (by omega) hk1 hk2, shl1_iter_e, shl1_iter_num _ _ (by omega), hnum]
      refine ⟨by simp; omega, ?_⟩
      have e3 : (2 : Nat) ^ 26 * 2 ^ 6 = 2 ^ P * 2 ^ k := by rw [e1]; norm_num
      have hpos : 0 < 2 ^ k := by positivity
      rw [← Nat.mul_div_mul_right _ (2 ^ 26) (show 0 < 2 ^ 6 by norm_num), e3, Nat.mul_right_comm,
        Nat.mul_div_mul_right _ _ hpos]
  obtain ⟨x, hx, hxe, hxn⟩ := hnorm
  unfold n2fGeneral
  simp only [hx, hxe, Config.bias]
  by_cases h : P ≤ 25
  · rw [if_pos (by omega), if_pos h]
    congr 1
    have hV : whole.toNat * 2 ^ 32 + frac.toNat < 2 ^ 26 :=
      lt_of_lt_of_le hhi (Nat.pow_le_pow_right (by omega) (by omega))
    apply BitVec.eq_of_toNat_eq
    rw [topFrac_toNat, denormalizeLeft_eq _ rfl, shl1_iter_num _ _ (by rw [hnum]; omega), hnum, BitVec.toNat_ofNat]
    omega
  · rw [if_neg (by omega), if_neg h]
    congr 1
    · rw [show (P : Int) - 32 + 7 = ((P - 25 : Nat) : Int) from by omega]
      exact BitVec.ofInt_natCast 4 (P - 25)
    · apply BitVec.eq_of_toNat_eq
      rw [topFrac_toNat, hxn, BitVec.toNat_ofNat]
      have hlo' : 64 ≤ (whole.toNat * 2 ^ 32 + frac.toNat) * 2 ^ 6 / 2 ^ P := by
        rw [Nat.le_div_iff_mul_le (by positivity)]; omega
      have hhi' : (whole.toNat * 2 ^ 32 + frac.toNat) * 2 ^ 6 / 2 ^ P < 128 := by
        rw [Nat.div_lt_iff_lt_mul (by positivity)]
        rw [Nat.pow_succ] at hhi; omega
      omega

/-! ## Normalized numbers -/

theorem whole_one_of_num (x : Split) (h1 : 2^32 ≤ splitNum x) (h2 : splitNum x < 2^33) : x.w = 1#32 := by
  apply BitVec.eq_of_toNat_eq
  rw [splitNum_w]; simp only [BitVec.toNat_ofNat]; omega

/-- The right normalization ends with a whole part of 1 (R102, R125). -/
theorem normalizeRight_whole (m : Acc) (f : Acc) (x : Int) (hm : m ≠ 0#32) : (normalizeRight { w := m, f := f, e := x }).w = 1#32 := by
  have h0 : m.toNat ≠ 0 := fun h => hm (BitVec.eq_of_toNat_eq (by simpa using h))
  obtain ⟨l, u⟩ := leading_bit m.toNat h0
  rw [normalizeRight_eq _ (Nat.log2 m.toNat) l u]
  have e : splitNum { w := m, f := f, e := x } = m.toNat * 2^32 + f.toNat := rfl
  have hf := f.isLt
  apply whole_one_of_num
  · rw [shr1_iter_num, e, Nat.le_div_iff_mul_le (Nat.two_pow_pos _), Nat.mul_comm]
    calc _ ≤ m.toNat * 2^32 := Nat.mul_le_mul_right _ l
     _ ≤ _ := by omega
  · rw [shr1_iter_num, e, Nat.div_lt_iff_lt_mul (Nat.two_pow_pos _)]
    calc _ < (m.toNat + 1) * 2^32 := by omega
     _ ≤ 2^(m.toNat.log2 + 1) * 2^32 := Nat.mul_le_mul_right _ u
     _ = _ := by rw [Nat.pow_succ]; ring

/-- The `exp` port is at least -128. -/
theorem sextExp_ge (x : ExpPort) : -128 ≤ sextExp x := by
  have := BitVec.le_toInt x
  unfold sextExp
  norm_num at this
  omega

theorem toNat_ne_zero {m : Acc} (h : m ≠ 0#32) : m.toNat ≠ 0 :=
  fun h' => h (BitVec.eq_of_toNat_eq (by simpa using h'))

end Sys2Proof.Laws
end

