-- ==== Sys2Proof/Laws/Value.lean ====
section
/-!
SUPPORT. The numeric meaning of the operations (spec/41_bridge_align.md R90; spec/42_bridge_reassemble.md R107):
values as multiples of 2⁻¹², alignment exact, reassembly and `N2F` truncating toward zero, `F2N` exact.
-/

namespace Sys2Proof.Laws

open Sys2Proof.Machine

/-- The magnitude of a value in units of 2⁻¹² (R54). -/
def magnitude12 (v : Enc) : Nat := significand v * 2 ^ (unbiasedExp v + 6).toNat

/-- "Every finite value is an integer multiple of 2^-12" (R54); the equation holds of every pattern. -/
theorem abs_val (v : Enc) : |val v| = (magnitude12 v : ℚ) / 4096 := by
  obtain ⟨g, hg⟩ : ∃ g : Nat, unbiasedExp v = g - 6 :=
    ⟨(unbiasedExp v + 6).toNat, by have := unbiasedExp_range v; omega⟩
  have hsign : |(-1 : ℚ) ^ (signField v).toNat| = 1 := by simp [abs_pow]
  have hpow : (2 : ℚ) ^ (unbiasedExp v - 6) = 2 ^ g / 4096 := by
    rw [hg, show ((g : Int) - 6 - 6) = (g : Int) - 12 from by ring, zpow_sub₀ (by norm_num), zpow_natCast]
    norm_num
  have hpos : (0 : ℚ) ≤ 2 ^ g / 4096 := by positivity
  rw [val, abs_mul, abs_mul, hsign, one_mul, hpow, abs_of_nonneg hpos, Nat.abs_cast, magnitude12, hg]
  push_cast
  rw [show ((g : Int) - 6 + 6).toNat = g from by omega]
  ring

theorem abs_val_nonneg (v : Enc) : 0 ≤ |val v| := abs_nonneg _

/-- A mantissa at an exponent of at least -12 equals a magnitude when it does so in units of 2⁻¹². -/
theorem mantissa_val (m : Nat) (e : Int) (v : Enc) (he : -12 ≤ e) (h : m * 2 ^ (e + 12).toNat = magnitude12 v) :
    (m : ℚ) * 2 ^ e = |val v| := by
  obtain ⟨g, hg⟩ : ∃ g : Nat, e = g - 12 := ⟨(e + 12).toNat, by omega⟩
  rw [abs_val, ← h, hg, show ((g : Int) - 12 + 12).toNat = g from by omega, zpow_sub₀ (by norm_num), zpow_natCast]
  push_cast
  ring

/-- The two mantissas of `ALIGN` are the two magnitudes exactly (R90). -/
theorem alignPair_val (a b : Enc) :
    ((alignPair a b).m1.toNat : ℚ) * 2 ^ (alignPair a b).e = |val a| ∧
    ((alignPair a b).m2.toNat : ℚ) * 2 ^ (alignPair a b).e = |val b| := by
  obtain ⟨he, -, h1, h2, -⟩ := alignPair_spec a b
  exact ⟨mantissa_val _ _ a he h1, mantissa_val _ _ b he h2⟩

/-! ## Fields of a composed value -/

theorem unbiasedExp_compose (s : Bit) (e : BitVec 4) (f : BitVec 6) :
    unbiasedExp (compose s e f) = if e = 0#4 then -6 else (e.toNat : Int) - 7 := by
  simp [unbiasedExp, Config.denormExp, Config.bias]

theorem significand_compose (s : Bit) (e : BitVec 4) (f : BitVec 6) :
    significand (compose s e f) = (if e = 0#4 then 0 else 64) + f.toNat := by
  unfold significand leadBit
  rw [expField_compose, fracField_compose]
  by_cases h : e = 0#4 <;> simp [h]

theorem isFinite_compose (s : Bit) (e : BitVec 4) (f : BitVec 6) (h : e ≠ 15#4) : isFinite (compose s e f) = true := by
  rw [isFinite_iff, expField_compose]; exact h

theorem significand_lt_64 (v : Enc) (h0 : expField v = 0#4) : significand v < 64 := by
  have := (fracField v).isLt
  unfold significand leadBit
  rw [h0]
  simp only [beq_self_eq_true, if_true]
  omega

/-! ## Truncation toward zero (R107) -/

/-- A finite `r` truncates a magnitude `x` when, at the scale `r`'s own exponent fixes, its significand is the
integer part of the scaled `x`. -/
theorem truncates_of_significand (x y : ℚ) (s : Bit) (r : Enc) (hs : signField r = s) (hf : isFinite r = true)
    (hx : x * 4096 = y * 2 ^ (unbiasedExp r + 6).toNat) (hlo : (significand r : ℚ) ≤ y)
    (hhi : y < (significand r : ℚ) + 1) : TruncatesTo x s r := by
  obtain ⟨hr6, -⟩ := unbiasedExp_range r
  have hr7 := unbiasedExp_finite r hf
  obtain ⟨g, hg⟩ : ∃ g : Nat, unbiasedExp r = g - 6 := ⟨(unbiasedExp r + 6).toNat, by omega⟩
  have hgt : (unbiasedExp r + 6).toNat = g := by omega
  rw [hgt] at hx
  have hp : (0 : ℚ) < 2 ^ g := by positivity
  have hSr := significand_lt r
  have hr : |val r| * 4096 = (significand r : ℚ) * 2 ^ g := by
    rw [abs_val, magnitude12, hgt]; push_cast; ring
  have hlt : x < 256 := by
    have h1 : y < 128 := by
      have : ((significand r : ℚ)) + 1 ≤ 128 := by exact_mod_cast hSr
      linarith
    have h2 : (2 : ℚ) ^ g ≤ 2 ^ 13 := by
      apply pow_le_pow_right₀ (by norm_num); omega
    have h3 : y * 2 ^ g < 128 * 2 ^ 13 := by
      calc y * 2 ^ g < 128 * 2 ^ g := by exact mul_lt_mul_of_pos_right h1 hp
        _ ≤ 128 * 2 ^ 13 := by linarith
    norm_num at h3
    linarith
  refine ⟨hs, fun h => absurd hlt (not_lt.2 h), fun _ => ⟨hf, ?_, ?_⟩⟩
  · have : (significand r : ℚ) * 2 ^ g ≤ y * 2 ^ g := mul_le_mul_of_nonneg_right hlo hp.le
    linarith
  · intro v hv hvx
    -- in units of 2⁻¹²: compare the exponents
    obtain ⟨hv6, -⟩ := unbiasedExp_range v
    obtain ⟨k, hk⟩ : ∃ k : Nat, unbiasedExp v = k - 6 := ⟨(unbiasedExp v + 6).toNat, by omega⟩
    have hkt : (unbiasedExp v + 6).toNat = k := by omega
    have hval : |val v| * 4096 = (significand v : ℚ) * 2 ^ k := by
      rw [abs_val, magnitude12, hkt]; push_cast; ring
    have hvy : (significand v : ℚ) * 2 ^ k ≤ y * 2 ^ g := by rw [← hval, ← hx]; linarith
    have hgoal : (significand v : ℚ) * 2 ^ k ≤ (significand r : ℚ) * 2 ^ g := by
      rcases Nat.lt_trichotomy k g with hlt' | heq | hgt'
      · -- a smaller exponent: every such value is below 64 at `r`'s scale
        have h64 : 64 ≤ significand r := significand_ge r (by omega)
        have hSv := significand_lt v
        have : significand v * 2 ^ k ≤ significand r * 2 ^ g := by
          calc significand v * 2 ^ k ≤ 128 * 2 ^ k := Nat.mul_le_mul_right _ hSv.le
            _ = 64 * 2 ^ (k + 1) := by rw [Nat.pow_succ]; ring
            _ ≤ significand r * 2 ^ g := Nat.mul_le_mul h64 (Nat.pow_le_pow_right (by omega) hlt')
        exact_mod_cast this
      · -- the same exponent: the significand is the integer part
        subst heq
        have h1 : (significand v : ℚ) ≤ y := le_of_mul_le_mul_right hvy hp
        have h2 : significand v < significand r + 1 := by
          have : (significand v : ℚ) < (significand r : ℚ) + 1 := lt_of_le_of_lt h1 hhi
          exact_mod_cast this
        have h3 : (significand v : ℚ) ≤ (significand r : ℚ) := by
          have : significand v ≤ significand r := by omega
          exact_mod_cast this
        exact mul_le_mul_of_nonneg_right h3 hp.le
      · -- a larger exponent: the value would exceed `x`
        exfalso
        have h64 : 64 ≤ significand v := significand_ge v (by omega)
        have h128 : y < 128 := by
          have : ((significand r : ℚ)) + 1 ≤ 128 := by exact_mod_cast hSr
          linarith
        have h1 : (128 : ℚ) * 2 ^ g ≤ (significand v : ℚ) * 2 ^ k := by
          have : 128 * 2 ^ g ≤ significand v * 2 ^ k := by
            calc 128 * 2 ^ g = 64 * 2 ^ (g + 1) := by rw [Nat.pow_succ]; ring
              _ ≤ significand v * 2 ^ k := Nat.mul_le_mul h64 (Nat.pow_le_pow_right (by omega) hgt')
          exact_mod_cast this
        have h2 : y * 2 ^ g < 128 * 2 ^ g := mul_lt_mul_of_pos_right h128 hp
        linarith
    linarith

/-- A natural quotient is the integer part of the rational one. -/
theorem div_bounds (n d : Nat) (hd : 0 < d) :
    ((n / d : Nat) : ℚ) ≤ (n : ℚ) / d ∧ (n : ℚ) / d < ((n / d : Nat) : ℚ) + 1 := by
  have hd' : (0 : ℚ) < d := by exact_mod_cast hd
  constructor
  · exact Nat.cast_div_le
  · rw [div_lt_iff₀ hd']
    have : n < (n / d + 1) * d := by
      have h1 := Nat.div_add_mod n d
      have h2 := Nat.mod_lt n hd
      nlinarith
    exact_mod_cast this

/-- `REASM` truncates `mant × 2^exp` toward zero (R106, R107). -/
theorem reassemble_truncates (m0 : Acc) (x0 : Int) (s : Bit) (hx : -128 ≤ x0) :
    TruncatesTo ((m0.toNat : ℚ) * 2 ^ x0) s (reassemble m0 x0 s) := by
  by_cases h0 : m0 = 0#32
  · subst h0
    rw [reassemble_zero]
    refine truncates_of_significand _ 0 s _ ?_ ?_ ?_ ?_ ?_
    · rw [signedZero_eq_compose, signField_compose]
    · rw [signedZero_eq_compose]; exact isFinite_compose _ _ _ (by decide)
    · simp
    · rw [signedZero_eq_compose, significand_compose]; simp
    · rw [signedZero_eq_compose, significand_compose]; simp
  · obtain ⟨hlo, hhi⟩ := leading_bit m0.toNat (fun hc => h0 (BitVec.eq_of_toNat_eq (by simpa using hc)))
    generalize hp : Nat.log2 m0.toNat = p at hlo hhi
    rw [reassemble_eq m0 x0 s p hx hlo hhi]
    have two0 : (2 : ℚ) ≠ 0 := by norm_num
    split
    · next h =>
      -- overflow
      have hge : (256 : ℚ) ≤ (m0.toNat : ℚ) * 2 ^ x0 := by
        have h1 : (2 : ℚ) ^ p ≤ (m0.toNat : ℚ) := by exact_mod_cast hlo
        calc (256 : ℚ) = 2 ^ (8 : Int) := by norm_num
          _ ≤ 2 ^ ((p : Int) + x0) := zpow_le_zpow_right₀ (by norm_num) (by omega)
          _ = 2 ^ p * 2 ^ x0 := by rw [zpow_add₀ two0, zpow_natCast]
          _ ≤ (m0.toNat : ℚ) * 2 ^ x0 := mul_le_mul_of_nonneg_right h1 (by positivity)
      refine ⟨by rw [signedInf_eq_compose, signField_compose], fun _ => rfl, fun hlt => ?_⟩
      exact absurd hlt (not_lt.2 hge)
    · split
      · next h8 h =>
        -- denormal
        obtain ⟨n, hn⟩ : ∃ n : Nat, x0 = -6 - n := ⟨(-6 - x0).toNat, by omega⟩
        have hnt : (-6 - x0).toNat = n := by omega
        rw [hnt]
        obtain ⟨b1, b2⟩ := div_bounds (m0.toNat * 2 ^ 6) (2 ^ n) (by positivity)
        have hq : m0.toNat * 2 ^ 6 / 2 ^ n < 64 := by
          rw [Nat.div_lt_iff_lt_mul (by positivity)]
          have : m0.toNat < 2 ^ n := lt_of_lt_of_le hhi (Nat.pow_le_pow_right (by omega) (by omega))
          omega
        have hsig : significand (compose s 0#4 (BitVec.ofNat 6 (m0.toNat * 2 ^ 6 / 2 ^ n))) =
            m0.toNat * 2 ^ 6 / 2 ^ n := by
          rw [significand_compose, BitVec.toNat_ofNat, if_pos rfl, Nat.zero_add]; exact Nat.mod_eq_of_lt hq
        refine truncates_of_significand _ (((m0.toNat * 2 ^ 6 : Nat) : ℚ) / ((2 ^ n : Nat) : ℚ)) s _ ?_ ?_ ?_ ?_ ?_
        · rw [signField_compose]
        · exact isFinite_compose _ _ _ (by decide)
        · rw [unbiasedExp_compose, if_pos rfl, hn, show ((-6 : Int) + 6).toNat = 0 from rfl,
            show (-6 - (n : Int)) = (-6 : Int) + -(n : Int) from by ring, zpow_add₀ two0,
            zpow_neg (2 : ℚ) (n : Int), zpow_natCast]
          push_cast
          norm_num
          ring
        · rw [hsig]; exact b1
        · rw [hsig]; exact b2
      · next h8 h7 =>
        -- normal
        obtain ⟨g, hg⟩ : ∃ g : Nat, x0 + p = g - 6 := ⟨(x0 + p + 6).toNat, by omega⟩
        obtain ⟨b1, b2⟩ := div_bounds (m0.toNat * 2 ^ 6) (2 ^ p) (by positivity)
        have hlo' : 64 ≤ m0.toNat * 2 ^ 6 / 2 ^ p := by
          rw [Nat.le_div_iff_mul_le (by positivity)]; omega
        have hhi' : m0.toNat * 2 ^ 6 / 2 ^ p < 128 := by
          rw [Nat.div_lt_iff_lt_mul (by positivity)]; rw [Nat.pow_succ] at hhi; omega
        have hbe : BitVec.ofInt 4 (x0 + p + 7) = BitVec.ofNat 4 (g + 1) := by
          rw [hg, show ((g : Int) - 6 + 7) = ((g + 1 : Nat) : Int) from by omega]
          exact BitVec.ofInt_natCast 4 (g + 1)
        have hg13 : g ≤ 13 := by omega
        have hne0 : BitVec.ofNat 4 (g + 1) ≠ 0#4 := by interval_cases g <;> decide
        have hne15 : BitVec.ofNat 4 (g + 1) ≠ 15#4 := by interval_cases g <;> decide
        have hto : (BitVec.ofNat 4 (g + 1)).toNat = g + 1 := by rw [BitVec.toNat_ofNat]; omega
        rw [hbe]
        have hsig : significand (compose s (BitVec.ofNat 4 (g + 1)) (BitVec.ofNat 6 (m0.toNat * 2 ^ 6 / 2 ^ p - 64))) =
            m0.toNat * 2 ^ 6 / 2 ^ p := by
          rw [significand_compose, if_neg hne0, BitVec.toNat_ofNat]; omega
        have hexp : unbiasedExp (compose s (BitVec.ofNat 4 (g + 1)) (BitVec.ofNat 6 (m0.toNat * 2 ^ 6 / 2 ^ p - 64))) =
            (g : Int) - 6 := by
          rw [unbiasedExp_compose, if_neg hne0, hto]; push_cast; ring
        refine truncates_of_significand _ (((m0.toNat * 2 ^ 6 : Nat) : ℚ) / ((2 ^ p : Nat) : ℚ)) s _ ?_ ?_ ?_ ?_ ?_
        · rw [signField_compose]
        · exact isFinite_compose _ _ _ hne15
        · rw [hexp, show ((g : Int) - 6 + 6).toNat = g from by omega,
            show x0 = (g : Int) + -6 + -(p : Int) from by omega, zpow_add₀ two0, zpow_add₀ two0,
            zpow_neg (2 : ℚ) (p : Int), zpow_natCast, zpow_natCast]
          push_cast
          norm_num
          ring
        · rw [hsig]; exact b1
        · rw [hsig]; exact b2

/-- The value as its sign and its magnitude in units of 2⁻¹² (R12, R54). -/
theorem val_eq (v : Enc) : val v = (if signField v = 1#1 then -1 else 1) * (magnitude12 v : ℚ) / 4096 := by
  have h := abs_val v
  rcases bit_cases (signField v) with hs | hs
  · have : 0 ≤ val v := by rw [val, hs]; simp; positivity
    rw [hs, abs_of_nonneg this] at *; simp [h]
  · have : val v ≤ 0 := by rw [val, hs]; simp; positivity
    rw [hs]
    rw [abs_of_nonpos this] at h
    simp; linarith

/-- Finite values of one magnitude differ at most in the sign (R54). -/
theorem magnitude12_inj (u v : Enc) (hu : isFinite u = true) (hv : isFinite v = true)
    (h : magnitude12 u = magnitude12 v) : expField u = expField v ∧ fracField u = fracField v := by
  have key : ∀ e e' : BitVec 4, ∀ f f' : BitVec 6, e ≠ 15#4 → e' ≠ 15#4 →
      magnitude12 (compose 0#1 e f) = magnitude12 (compose 0#1 e' f') → e = e' ∧ f = f' := by
    intro e e' f f' he he' hm
    simp only [magnitude12, significand_compose, unbiasedExp_compose] at hm
    have hf := f.isLt; have hf' := f'.isLt
    have h1 := e.isLt; have h1' := e'.isLt
    have t : ∀ e : BitVec 4, e = 0#4 ↔ e.toNat = 0 := fun e => ⟨fun h => by simp [h], fun h => BitVec.eq_of_toNat_eq (by simpa using h)⟩
    simp only [t] at hm
    have x : ∀ n : Nat, ((n : Int) - 7 + 6).toNat = n - 1 := fun n => by omega
    suffices h : e.toNat = e'.toNat ∧ f.toNat = f'.toNat from
      ⟨BitVec.eq_of_toNat_eq h.1, BitVec.eq_of_toNat_eq h.2⟩
    generalize e.toNat = n at *
    generalize e'.toNat = n' at *
    generalize f.toNat = g at *
    generalize f'.toNat = g' at *
    interval_cases n <;> interval_cases n' <;> simp at hm <;> omega
  have := key (expField u) (expField v) (fracField u) (fracField v) ((isFinite_iff u).1 hu) ((isFinite_iff v).1 hv)
  apply this
  have e : ∀ w : Enc, magnitude12 (compose 0#1 (expField w) (fracField w)) = magnitude12 w := by
    intro w; simp [magnitude12, significand, leadBit, unbiasedExp]
  rw [e, e, h]

/-- The magnitude is zero exactly for the two zeros. -/
theorem magnitude12_eq_zero (v : Enc) : magnitude12 v = 0 ↔ isZero v = true := by
  have h1 : magnitude12 v = 0 ↔ significand v = 0 := by
    unfold magnitude12
    constructor
    · intro h
      rcases Nat.mul_eq_zero.1 h with h | h
      · exact h
      · simp at h
    · intro h; rw [h, Nat.zero_mul]
  rw [h1, isZero_iff, significand, leadBit]
  constructor
  · intro h
    by_cases he : expField v = 0#4
    · refine ⟨he, BitVec.eq_of_toNat_eq ?_⟩
      simp only [BitVec.toNat_ofNat]; omega
    · rw [if_neg (by simpa using he)] at h; omega
  · rintro ⟨he, hf⟩
    rw [he, hf]; rfl

/-- The split number as one number scaled by its exponent (R80). -/
theorem splitVal_num (x : Split) : splitVal x = (splitNum x : ℚ) / 2 ^ 32 * 2 ^ x.e := by
  unfold splitVal splitNum; push_cast; ring

end Sys2Proof.Laws
end

