-- ==== Sys2Proof/Laws/ClosedForm.lean ====
section
/-!
SUPPORT. The closed form of `Align` (spec/41_bridge_align.md R91), its bounds (R94) and its symmetry.
-/

namespace Sys2Proof.Laws

open Sys2Proof.Machine

/-- An odd mantissa has lost exactly the trailing zeros of the significand. -/
theorem odd_part (m S : Nat) (k g : Nat) (h : m * 2 ^ k = S * 2 ^ g) (hodd : m % 2 = 1) (hS : S ≠ 0):
   padicValNat 2 S + g = k := by
  have h2 := congrArg (padicValNat 2) h
  rw [padicValNat.mul (by omega) (by positivity), padicValNat.mul hS (by positivity), padicValNat.prime_pow, padicValNat.prime_pow, padicValNat.eq_zero_of_not_dvd (by omega)] at h2
  omega

/-- No mantissa has lost more than the trailing zeros of the significand. -/
theorem padic_le (m S : Nat) (k g : Nat) (h : m * 2 ^ k = S * 2 ^ g) (hS : S ≠ 0):
   k ≤ padicValNat 2 S + g := by
  have hm : m ≠ 0 := by rintro rfl; have : 0 < S * 2 ^g := by positivity
                        omega
  have h2 := congrArg (padicValNat 2) h
  rw [padicValNat.mul hm (by positivity), padicValNat.mul hS (by positivity), padicValNat.prime_pow, padicValNat.prime_pow] at h2
  omega

/-- The loops of `Align` reach the exponent of the closed form (R91). -/
theorem alignPair_closed (a b : Enc) : (alignPair a b).e = closedAlignExp a b := by
  obtain ⟨hlo, hhi, h1, h2, h3⟩ := alignPair_spec a b
  have ra := unbiasedExp_range a; have rb := unbiasedExp_range b
  unfold closedAlignExp lowestBitExp unitExp tz
  have sm : ∀ (v : Enc), significand v = 0 → unbiasedExp v = -6 := by
    intro v h; by_contra hc
    have := unbiasedExp_range v
    have := significand_ge v (by omega); omega
  have m0 : ∀ m S k g : Nat, m * 2 ^ k = S * 2 ^ g → S = 0 → m = 0 := by
    intro m S k g h hS; subst hS; 
    rcases Nat.mul_eq_zero.1 (by rw [h]; simp) with h | h
    · exact h
    · simp at h
  by_cases za : significand a = 0 <;> by_cases zb : significand b = 0
  · rw [if_pos za, if_pos zb]
    have := m0 _ _ _ _ h1 za; have := m0 _ _ _ _ h2 zb
    rcases h3 with h | h | ⟨-, -, h⟩
    · omega
    · omega
    · rw [h, sm a za, sm b zb]; rfl
  · rw [if_pos za, if_neg zb]
    have := m0 _ _ _ _ h1 za
    rcases h3 with h | h | ⟨-, h, -⟩
    · omega
    · have := odd_part _ _ _ _ h2 h zb; omega
    · omega
  · rw [if_neg za, if_pos zb]
    have := m0 _ _ _ _ h2 zb
    rcases h3 with h | h | ⟨h, -, -⟩
    · have := odd_part _ _ _ _ h1 h za; omega
    · omega
    · omega
  · rw [if_neg za, if_neg zb]
    have l1 := padic_le _ _ _ _ h1 za; have l2 := padic_le _ _ _ _ h2 zb
    rcases h3 with h | h | ⟨h, -, -⟩
    · have := odd_part _ _ _ _ h1 h za; omega
    · have := odd_part _ _ _ _ h2 h zb; omega
    · omega

/-- A mantissa of a value whose exponent is at most `G - 6`. -/
theorem mantissa_le (m S k g G: Nat) (h : m * 2 ^ k = S * 2 ^ g) (hS : S ≤ 127) (hg : g ≤ G) : m ≤ 127 * 2 ^ G := by
  calc m ≤ m * 2 ^ k := Nat.le_mul_of_pos_right _ (by positivity)
    _ = S * 2 ^ g := h
    _ ≤ 127 * 2 ^ G := Nat.mul_le_mul hS (Nat.pow_le_pow_right (by omega) hg)

/-- An odd mantissa is at most the largest significand. -/
theorem odd_mantissa_le (m S k g: Nat) (h : m * 2 ^ k = S * 2 ^ g) (hS : S ≤ 127) (ho : m % 2 = 1) : m ≤ 127 := by
  by_cases h0 : S = 0
  · subst h0; rcases Nat.mul_eq_zero.1 (show m * 2^k = 0 by rw [h]; simp) with h | h
    · omega
    · simp at h
  · have hk := odd_part m S k g h ho h0
    rw [← hk, Nat.pow_add, ← Nat.mul_assoc] at h
    have := Nat.eq_of_mul_eq_mul_right (by positivity) h
    calc m ≤ m * 2 ^ padicValNat 2 S := Nat.le_mul_of_pos_right _ (by positivity)
     _ ≤ 127 := by omega

/-- The bounds on the outputs of `Align` for finite operands (R94, R147, R160). -/
theorem alignPair_bounds (a b : Enc) (ha : isFinite a = true) (hb : isFinite b = true) :
   (alignPair a b).e ≤ 7 ∧ (alignPair a b).m1.toNat ≤ 1040384 ∧ (alignPair a b).m2.toNat ≤ 1040384 ∧ (alignPair a b).m1.toNat * (alignPair a b).m2.toNat ≤ 132128768 := by
  obtain ⟨hlo, hhi, h1, h2, h3⟩ := alignPair_spec a b
  have ra := unbiasedExp_finite a ha; have rb := unbiasedExp_finite b hb
  have sa := significand_lt a; have sb := significand_lt b
  have b1 := mantissa_le _ _ _ _ 13 h1 (by omega) (by omega)
  have b2 := mantissa_le _ _ _ _ 13 h2 (by omega) (by omega)
  refine ⟨by omega, by omega, by omega, ?_⟩
  rcases h3 with h | h | ⟨hz, -, -⟩
  · have := odd_mantissa_le _ _ _ _ h1 (by omega) h
    calc _ ≤ 127 * (127*2^13) := Nat.mul_le_mul this b2
     _ = _ := by norm_num
  · have := odd_mantissa_le _ _ _ _ h2 (by omega) h
    calc _ ≤ (127*2^13) * 127 := Nat.mul_le_mul b1 this
     _ = _ := by norm_num
  · rw [hz] at h1
    rcases Nat.mul_eq_zero.1 (show _ * 2 ^ _ = 0 by rw [h1]; simp) with h | h
    · rw [h]; simp
    · simp at h

/-- Swapping the operands swaps the mantissas and keeps the exponent. -/
theorem alignPair_swap (a b : Enc) : (alignPair b a).e = (alignPair a b).e ∧ (alignPair b a).m1 = (alignPair a b).m2 ∧ (alignPair b a).m2 = (alignPair a b).m1 := by
  have he : (alignPair b a).e = (alignPair a b).e := by
    rw [alignPair_closed, alignPair_closed]; unfold closedAlignExp
    split_ifs <;> simp [max_comm, min_comm]
  obtain ⟨hlo, hhi, h1, h2, h3⟩ := alignPair_spec a b
  obtain ⟨hlo', hhi', h1', h2', h3'⟩ := alignPair_spec b a
  rw [he] at h1' h2'
  exact ⟨he, BitVec.eq_of_toNat_eq (Nat.eq_of_mul_eq_mul_right (by positivity) (h1'.trans h2.symm)),
    BitVec.eq_of_toNat_eq (Nat.eq_of_mul_eq_mul_right (by positivity) (h2'.trans h1.symm))⟩

end Sys2Proof.Laws
end

