-- ==== Sys2Proof/Laws/Converters.lean ====
section
/-!
SUPPORT. The converters (spec/43_converters.md): `N2F` truncates the struct's magnitude toward zero (R128), the
finite path of `F2N` delivers the magnitude exactly (R135, R136), and the two together return the value (R137).
-/

namespace Sys2Proof.Laws

open Sys2Proof.Machine

/-! ## N2F -/

/-- The guards of `N2F` passed: a present struct, no flag, a whole part below 256, not zero (R121 to R124). -/
theorem n2fValue_general (neg : Bit) (whole frac : Acc) (hw : whole.toNat < 256)
    (hz : ¬ (whole = 0#32 ∧ frac = 0#32)) : n2fValue 1#1 neg 0#1 0#1 whole frac = n2fGeneral neg whole frac := by
  have h1 : ((0#1 : Bit) == 1#1) = false := rfl
  have h2 : decide (Config.wholeOvf.toNat ≤ whole.toNat) = false := by
    rw [decide_eq_false_iff_not]; show ¬ 256 ≤ whole.toNat; omega
  have h3 : (whole == 0#32 && frac == 0#32) = false := by
    rw [Bool.eq_false_iff]; simpa using hz
  simp [n2fValue, h2, h3]

theorem struct_number (whole frac : Acc) (hw : whole.toNat < 256) (hz : ¬ (whole = 0#32 ∧ frac = 0#32)) :
    ∃ P, P ≤ 39 ∧ 2 ^ P ≤ whole.toNat * 2 ^ 32 + frac.toNat ∧ whole.toNat * 2 ^ 32 + frac.toNat < 2 ^ (P + 1) := by
  have hf := frac.isLt
  have hne : whole.toNat * 2 ^ 32 + frac.toNat ≠ 0 := by
    intro hc
    exact hz ⟨BitVec.eq_of_toNat_eq (by simp; omega), BitVec.eq_of_toNat_eq (by simp; omega)⟩
  obtain ⟨hlo, hhi⟩ := leading_bit _ hne
  refine ⟨_, ?_, hlo, hhi⟩
  by_contra hc
  have : 2 ^ 40 ≤ 2 ^ Nat.log2 (whole.toNat * 2 ^ 32 + frac.toNat) := Nat.pow_le_pow_right (by omega) (by omega)
  omega

/-- The general path of `N2F` truncates `whole + frac / 2^32` toward zero (R128). -/
theorem n2fGeneral_truncates (neg : Bit) (whole frac : Acc) (hw : whole.toNat < 256)
    (hz : ¬ (whole = 0#32 ∧ frac = 0#32)) :
    TruncatesTo ((whole.toNat : ℚ) + (frac.toNat : ℚ) / 2 ^ 32) neg (n2fGeneral neg whole frac) := by
  obtain ⟨P, hP, hlo, hhi⟩ := struct_number whole frac hw hz
  have hf := frac.isLt
  rw [n2fGeneral_eq neg whole frac P hP hlo hhi]
  split
  · next h =>
    have hV : whole.toNat * 2 ^ 32 + frac.toNat < 2 ^ 26 :=
      lt_of_lt_of_le hhi (Nat.pow_le_pow_right (by omega) (by omega))
    have hw0 : whole.toNat = 0 := by omega
    obtain ⟨b1, b2⟩ := div_bounds frac.toNat (2 ^ 20) (by positivity)
    have hq : frac.toNat / 2 ^ 20 < 64 := by omega
    have hsig : significand (compose neg 0#4 (BitVec.ofNat 6 (frac.toNat / 2 ^ 20))) = frac.toNat / 2 ^ 20 := by
      rw [significand_compose, BitVec.toNat_ofNat, if_pos rfl, Nat.zero_add]; exact Nat.mod_eq_of_lt hq
    refine truncates_of_significand _ ((frac.toNat : ℚ) / ((2 ^ 20 : Nat) : ℚ)) neg _ ?_ ?_ ?_ ?_ ?_
    · rw [signField_compose]
    · exact isFinite_compose _ _ _ (by decide)
    · rw [unbiasedExp_compose, if_pos rfl, hw0, show ((-6 : Int) + 6).toNat = 0 from rfl]
      push_cast
      ring
    · rw [hsig]; exact b1
    · rw [hsig]; exact b2
  · next h =>
    obtain ⟨g, hg⟩ := Nat.exists_eq_add_of_lt (show 25 < P by omega)
    obtain ⟨b1, b2⟩ := div_bounds ((whole.toNat * 2 ^ 32 + frac.toNat) * 2 ^ 6) (2 ^ P) (by positivity)
    have hlo' : 64 ≤ (whole.toNat * 2 ^ 32 + frac.toNat) * 2 ^ 6 / 2 ^ P := by
      rw [Nat.le_div_iff_mul_le (by positivity)]; omega
    have hhi' : (whole.toNat * 2 ^ 32 + frac.toNat) * 2 ^ 6 / 2 ^ P < 128 := by
      rw [Nat.div_lt_iff_lt_mul (by positivity)]; rw [Nat.pow_succ] at hhi; omega
    have hbe : P - 25 = g + 1 := by omega
    have hg13 : g ≤ 13 := by omega
    have hne0 : BitVec.ofNat 4 (g + 1) ≠ 0#4 := by interval_cases g <;> decide
    have hne15 : BitVec.ofNat 4 (g + 1) ≠ 15#4 := by interval_cases g <;> decide
    have hto : (BitVec.ofNat 4 (g + 1)).toNat = g + 1 := by rw [BitVec.toNat_ofNat]; omega
    rw [hbe]
    generalize hfr : BitVec.ofNat 6 ((whole.toNat * 2 ^ 32 + frac.toNat) * 2 ^ 6 / 2 ^ P - 64) = fr
    have hsig : significand (compose neg (BitVec.ofNat 4 (g + 1)) fr) =
        (whole.toNat * 2 ^ 32 + frac.toNat) * 2 ^ 6 / 2 ^ P := by
      rw [significand_compose, if_neg hne0, ← hfr, BitVec.toNat_ofNat]; omega
    have hexp : unbiasedExp (compose neg (BitVec.ofNat 4 (g + 1)) fr) = (g : Int) - 6 := by
      rw [unbiasedExp_compose, if_neg hne0, hto]; push_cast; ring
    refine truncates_of_significand _
      ((((whole.toNat * 2 ^ 32 + frac.toNat) * 2 ^ 6 : Nat) : ℚ) / ((2 ^ P : Nat) : ℚ)) neg _ ?_ ?_ ?_ ?_ ?_
    · rw [signField_compose]
    · exact isFinite_compose _ _ _ hne15
    · rw [hexp, show ((g : Int) - 6 + 6).toNat = g from by omega, hg, show 25 + g + 1 = g + 26 from by omega,
        Nat.pow_add]
      push_cast
      field_simp
      ring
    · rw [hsig]; exact b1
    · rw [hsig]; exact b2

/-! ## F2N -/

/-- The finite path of `F2N` brings the exponent to 0 and delivers `S × 2^(e+26)` as whole and fraction (R135, R136):
no set bit is lost. -/
theorem shiftToUnits_extract (v : Enc) (hf : isFinite v = true) :
    (shiftToUnits (extract v)).e = 0 ∧
      splitNum (shiftToUnits (extract v)) = significand v * 2 ^ (unbiasedExp v + 26).toNat := by
  obtain ⟨hlo, -⟩ := unbiasedExp_range v
  have hhi := unbiasedExp_finite v hf
  have hS := significand_lt v
  have hnum := extract_num v
  unfold shiftToUnits
  by_cases hpos : 0 < unbiasedExp v
  · obtain ⟨k, hk⟩ : ∃ k : Nat, unbiasedExp v = k := ⟨(unbiasedExp v).toNat, by omega⟩
    have hleft : whileLoop 7 (fun x : Split => decide (0 < x.e)) shl1 (extract v) = shl1^[k] (extract v) := by
      refine whileLoop_eq_iterate 7 k _ (by omega) ?_ ?_
      · intro j hj
        rw [decide_eq_true_eq, shl1_iter_e, extract_e]; omega
      · rw [decide_eq_false_iff_not, shl1_iter_e, extract_e]; omega
    have he : (shl1^[k] (extract v)).e = 0 := by rw [shl1_iter_e, extract_e]; omega
    rw [hleft, whileLoop_of_false _ (by simp only [decide_eq_false_iff_not, he]; omega)]
    refine ⟨he, ?_⟩
    have hsmall : significand v * 2 ^ 26 * 2 ^ k < 2 ^ 64 := by
      calc significand v * 2 ^ 26 * 2 ^ k ≤ 127 * 2 ^ 26 * 2 ^ 7 :=
            Nat.mul_le_mul (Nat.mul_le_mul_right _ (by omega)) (Nat.pow_le_pow_right (by omega) (by omega))
        _ < 2 ^ 64 := by norm_num
    rw [shl1_iter_num _ _ (by rw [hnum]; exact hsmall), hnum, hk, show ((k : Int) + 26).toNat = 26 + k from by omega,
      Nat.pow_add, Nat.mul_assoc]
  · obtain ⟨k, hk⟩ : ∃ k : Nat, unbiasedExp v = -k := ⟨(-unbiasedExp v).toNat, by omega⟩
    rw [whileLoop_of_false 7 (by rw [decide_eq_false_iff_not, extract_e]; exact hpos)]
    have hright : whileLoop 6 (fun x : Split => decide (x.e < 0)) shr1 (extract v) = shr1^[k] (extract v) := by
      refine whileLoop_eq_iterate 6 k _ (by omega) ?_ ?_
      · intro j hj
        rw [decide_eq_true_eq, shr1_iter_e, extract_e]; omega
      · rw [decide_eq_false_iff_not, shr1_iter_e, extract_e]; omega
    rw [hright]
    refine ⟨by rw [shr1_iter_e, extract_e]; omega, ?_⟩
    have h26 : (2 : Nat) ^ 26 = 2 ^ (26 - k) * 2 ^ k := by
      rw [← Nat.pow_add, Nat.sub_add_cancel (by omega)]
    rw [shr1_iter_num, hnum, hk, show (-(k : Int) + 26).toNat = 26 - k from by omega, h26, ← Nat.mul_assoc,
      Nat.mul_div_cancel _ (by positivity)]

/-- The magnitude `F2N` delivers is the operand's (R136). -/
theorem shiftToUnits_val (v : Enc) (hf : isFinite v = true) :
    ((shiftToUnits (extract v)).w.toNat : ℚ) + ((shiftToUnits (extract v)).f.toNat : ℚ) / 2 ^ 32 = |val v| := by
  obtain ⟨-, hn⟩ := shiftToUnits_extract v hf
  obtain ⟨hlo, -⟩ := unbiasedExp_range v
  obtain ⟨g, hg⟩ : ∃ g : Nat, unbiasedExp v = g - 6 := ⟨(unbiasedExp v + 6).toNat, by omega⟩
  rw [hg, show ((g : Int) - 6 + 26).toNat = g + 20 from by omega] at hn
  have hq : ((shiftToUnits (extract v)).w.toNat : ℚ) * 2 ^ 32 + ((shiftToUnits (extract v)).f.toNat : ℚ) =
      (significand v : ℚ) * 2 ^ (g + 20) := by
    have : ((splitNum (shiftToUnits (extract v)) : Nat) : ℚ) = ((significand v * 2 ^ (g + 20) : Nat) : ℚ) := by rw [hn]
    unfold splitNum at this
    push_cast at this
    exact this
  rw [abs_val, magnitude12, hg, show ((g : Int) - 6 + 6).toNat = g from by omega]
  push_cast
  rw [pow_add] at hq
  linarith

end Sys2Proof.Laws
end

