-- ==== Sys2Proof/Laws/Decode.lean ====
section
/-!
SUPPORT. The operation code table (spec/30_encoding.md R55, R57, R58): complete, without overlap, and read back by
the decoder.
-/

namespace Sys2Proof.Laws

/-- Every operation code has a row. -/
theorem opTable_find_isSome : ∀ op : OpCode, (opTable.find? (fun row => row.code == op)).isSome = true := by decide

/-- No two rows share a code. -/
theorem opTable_nodup : (opTable.map OpRow.code).Nodup := by decide

/-- The rows hold exactly the sixteen codes. -/
theorem opTable_codes_complete : ∀ op : OpCode, op ∈ opTable.map OpRow.code := by decide

/-- The encoder is the table read the other way. -/
theorem opTable_encode : ∀ row ∈ opTable, encode row.instr = row.code := by decide

@[simp] theorem decodeOp_encode (i : Instr) : decodeOp (encode i) = i := by cases i <;> decide

@[simp] theorem encode_decodeOp : ∀ op : OpCode, encode (decodeOp op) = op := by decide

theorem encode_injective {i j : Instr} (h : encode i = encode j) : i = j := by
  rw [← decodeOp_encode i, h, decodeOp_encode]

/-- A code selects an operation exactly when it is below 0xA (R57, R58). -/
theorem decodeOp_wf : ∀ op : OpCode, (decodeOp op).wf = decide (op.toNat < 10) := by decide

theorem decodeWord_ok {w : Nat} (h : w < 16) : decodeWord w = .ok (decodeOp (BitVec.ofNat 4 w)) := by
  simp [decodeWord, h]

theorem decodeWord_reject {w : Nat} (h : 16 ≤ w) : decodeWord w = .error (.bitsAboveOp4 w) := by
  simp [decodeWord, Nat.not_lt.2 h]

end Sys2Proof.Laws
end

