-- ==== Sys2Proof/Laws/State.lean ====
section
/-!
SUPPORT. One lemma per field per update of State and of the output bundle, each true by rfl, so that no later
proof unfolds a record update.
-/

namespace Sys2Proof.Laws

open Sys2Proof.Machine

variable (s : State) (o : OutPorts) (v : Enc) (nbits w : Nat)

/-! ## Reset -/

@[simp] theorem reset_out : State.reset.out = OutPorts.idle := rfl

@[simp] theorem reset_inp : State.reset.inp = InPorts.zero := rfl

/-! ## No port driven -/

@[simp] theorem idle_r : OutPorts.idle.r = .undriven := rfl

@[simp] theorem idle_is_nan : OutPorts.idle.is_nan = .undriven := rfl

@[simp] theorem idle_is_inf : OutPorts.idle.is_inf = .undriven := rfl

@[simp] theorem idle_is_denorm : OutPorts.idle.is_denorm = .undriven := rfl

@[simp] theorem idle_is_neg : OutPorts.idle.is_neg = .undriven := rfl

@[simp] theorem idle_is_zero : OutPorts.idle.is_zero = .undriven := rfl

@[simp] theorem idle_u_sign : OutPorts.idle.u_sign = .undriven := rfl

@[simp] theorem idle_u_whole : OutPorts.idle.u_whole = .undriven := rfl

@[simp] theorem idle_u_frac : OutPorts.idle.u_frac = .undriven := rfl

@[simp] theorem idle_u_exp : OutPorts.idle.u_exp = .undriven := rfl

@[simp] theorem idle_m1 : OutPorts.idle.m1 = .undriven := rfl

@[simp] theorem idle_m2 : OutPorts.idle.m2 = .undriven := rfl

@[simp] theorem idle_e_sh : OutPorts.idle.e_sh = .undriven := rfl

@[simp] theorem idle_o_neg : OutPorts.idle.o_neg = .undriven := rfl

@[simp] theorem idle_o_inf : OutPorts.idle.o_inf = .undriven := rfl

@[simp] theorem idle_o_nan : OutPorts.idle.o_nan = .undriven := rfl

@[simp] theorem idle_o_whole : OutPorts.idle.o_whole = .undriven := rfl

@[simp] theorem idle_o_frac : OutPorts.idle.o_frac = .undriven := rfl

@[simp] theorem idle_we_neg : OutPorts.idle.we_neg = .undriven := rfl

@[simp] theorem idle_we_inf : OutPorts.idle.we_inf = .undriven := rfl

@[simp] theorem idle_we_nan : OutPorts.idle.we_nan = .undriven := rfl

@[simp] theorem idle_we_whole : OutPorts.idle.we_whole = .undriven := rfl

@[simp] theorem idle_we_frac : OutPorts.idle.we_frac = .undriven := rfl

@[simp] theorem idle_err : OutPorts.idle.err = .undriven := rfl

@[simp] theorem idle_op_illegal : OutPorts.idle.op_illegal = .undriven := rfl

/-! ## One encoded result (R28) -/

@[simp] theorem outResult_r : (outResult v).r = .driven v := rfl

@[simp] theorem outResult_is_nan : (outResult v).is_nan = .undriven := rfl

@[simp] theorem outResult_is_inf : (outResult v).is_inf = .undriven := rfl

@[simp] theorem outResult_is_denorm : (outResult v).is_denorm = .undriven := rfl

@[simp] theorem outResult_is_neg : (outResult v).is_neg = .undriven := rfl

@[simp] theorem outResult_is_zero : (outResult v).is_zero = .undriven := rfl

@[simp] theorem outResult_u_sign : (outResult v).u_sign = .undriven := rfl

@[simp] theorem outResult_u_whole : (outResult v).u_whole = .undriven := rfl

@[simp] theorem outResult_u_frac : (outResult v).u_frac = .undriven := rfl

@[simp] theorem outResult_u_exp : (outResult v).u_exp = .undriven := rfl

@[simp] theorem outResult_m1 : (outResult v).m1 = .undriven := rfl

@[simp] theorem outResult_m2 : (outResult v).m2 = .undriven := rfl

@[simp] theorem outResult_e_sh : (outResult v).e_sh = .undriven := rfl

@[simp] theorem outResult_o_neg : (outResult v).o_neg = .undriven := rfl

@[simp] theorem outResult_o_inf : (outResult v).o_inf = .undriven := rfl

@[simp] theorem outResult_o_nan : (outResult v).o_nan = .undriven := rfl

@[simp] theorem outResult_o_whole : (outResult v).o_whole = .undriven := rfl

@[simp] theorem outResult_o_frac : (outResult v).o_frac = .undriven := rfl

@[simp] theorem outResult_we_neg : (outResult v).we_neg = .undriven := rfl

@[simp] theorem outResult_we_inf : (outResult v).we_inf = .undriven := rfl

@[simp] theorem outResult_we_nan : (outResult v).we_nan = .undriven := rfl

@[simp] theorem outResult_we_whole : (outResult v).we_whole = .undriven := rfl

@[simp] theorem outResult_we_frac : (outResult v).we_frac = .undriven := rfl

@[simp] theorem outResult_err : (outResult v).err = .undriven := rfl

@[simp] theorem outResult_op_illegal : (outResult v).op_illegal = .undriven := rfl

/-! ## The five predicate ports (R70, R85) -/

@[simp] theorem withFlags_r : (withFlags o v).r = o.r := rfl

@[simp] theorem withFlags_is_nan : (withFlags o v).is_nan = .driven (bit (isNaN v)) := rfl

@[simp] theorem withFlags_is_inf : (withFlags o v).is_inf = .driven (bit (isInfinity v)) := rfl

@[simp] theorem withFlags_is_denorm : (withFlags o v).is_denorm = .driven (bit (isDenormalized v)) := rfl

@[simp] theorem withFlags_is_neg : (withFlags o v).is_neg = .driven (bit (isNegative v)) := rfl

@[simp] theorem withFlags_is_zero : (withFlags o v).is_zero = .driven (bit (isZero v)) := rfl

@[simp] theorem withFlags_u_sign : (withFlags o v).u_sign = o.u_sign := rfl

@[simp] theorem withFlags_u_whole : (withFlags o v).u_whole = o.u_whole := rfl

@[simp] theorem withFlags_u_frac : (withFlags o v).u_frac = o.u_frac := rfl

@[simp] theorem withFlags_u_exp : (withFlags o v).u_exp = o.u_exp := rfl

@[simp] theorem withFlags_m1 : (withFlags o v).m1 = o.m1 := rfl

@[simp] theorem withFlags_m2 : (withFlags o v).m2 = o.m2 := rfl

@[simp] theorem withFlags_e_sh : (withFlags o v).e_sh = o.e_sh := rfl

@[simp] theorem withFlags_o_neg : (withFlags o v).o_neg = o.o_neg := rfl

@[simp] theorem withFlags_o_inf : (withFlags o v).o_inf = o.o_inf := rfl

@[simp] theorem withFlags_o_nan : (withFlags o v).o_nan = o.o_nan := rfl

@[simp] theorem withFlags_o_whole : (withFlags o v).o_whole = o.o_whole := rfl

@[simp] theorem withFlags_o_frac : (withFlags o v).o_frac = o.o_frac := rfl

@[simp] theorem withFlags_we_neg : (withFlags o v).we_neg = o.we_neg := rfl

@[simp] theorem withFlags_we_inf : (withFlags o v).we_inf = o.we_inf := rfl

@[simp] theorem withFlags_we_nan : (withFlags o v).we_nan = o.we_nan := rfl

@[simp] theorem withFlags_we_whole : (withFlags o v).we_whole = o.we_whole := rfl

@[simp] theorem withFlags_we_frac : (withFlags o v).we_frac = o.we_frac := rfl

@[simp] theorem withFlags_err : (withFlags o v).err = o.err := rfl

@[simp] theorem withFlags_op_illegal : (withFlags o v).op_illegal = o.op_illegal := rfl

/-! ## The operation presented on `op` -/

@[simp] theorem withFetchWord_out : (s.withFetchWord nbits w).out = s.out := rfl

@[simp] theorem withFetchWord_op :
    (s.withFetchWord nbits w).inp.op = BitVec.ofNat 4 (w % 2 ^ nbits) := rfl

@[simp] theorem withFetchWord_a : (s.withFetchWord nbits w).inp.a = s.inp.a := rfl

@[simp] theorem withFetchWord_b : (s.withFetchWord nbits w).inp.b = s.inp.b := rfl

@[simp] theorem withFetchWord_mant : (s.withFetchWord nbits w).inp.mant = s.inp.mant := rfl

@[simp] theorem withFetchWord_exp : (s.withFetchWord nbits w).inp.exp = s.inp.exp := rfl

@[simp] theorem withFetchWord_sgn : (s.withFetchWord nbits w).inp.sgn = s.inp.sgn := rfl

@[simp] theorem withFetchWord_num_present : (s.withFetchWord nbits w).inp.num_present = s.inp.num_present := rfl

@[simp] theorem withFetchWord_num_neg : (s.withFetchWord nbits w).inp.num_neg = s.inp.num_neg := rfl

@[simp] theorem withFetchWord_num_inf : (s.withFetchWord nbits w).inp.num_inf = s.inp.num_inf := rfl

@[simp] theorem withFetchWord_num_nan : (s.withFetchWord nbits w).inp.num_nan = s.inp.num_nan := rfl

@[simp] theorem withFetchWord_num_whole : (s.withFetchWord nbits w).inp.num_whole = s.inp.num_whole := rfl

@[simp] theorem withFetchWord_num_frac : (s.withFetchWord nbits w).inp.num_frac = s.inp.num_frac := rfl

/-! ## The struct writes the host commits (R43) -/

@[simp] theorem commitStruct_out : (commitStruct s).out = s.out := rfl

@[simp] theorem commitStruct_op : (commitStruct s).inp.op = s.inp.op := rfl

@[simp] theorem commitStruct_a : (commitStruct s).inp.a = s.inp.a := rfl

@[simp] theorem commitStruct_b : (commitStruct s).inp.b = s.inp.b := rfl

@[simp] theorem commitStruct_mant : (commitStruct s).inp.mant = s.inp.mant := rfl

@[simp] theorem commitStruct_exp : (commitStruct s).inp.exp = s.inp.exp := rfl

@[simp] theorem commitStruct_sgn : (commitStruct s).inp.sgn = s.inp.sgn := rfl

@[simp] theorem commitStruct_num_present : (commitStruct s).inp.num_present = s.inp.num_present := rfl

@[simp] theorem commitStruct_num_neg :
    (commitStruct s).inp.num_neg = writeField s.out.we_neg s.out.o_neg s.inp.num_neg := rfl

@[simp] theorem commitStruct_num_inf :
    (commitStruct s).inp.num_inf = writeField s.out.we_inf s.out.o_inf s.inp.num_inf := rfl

@[simp] theorem commitStruct_num_nan :
    (commitStruct s).inp.num_nan = writeField s.out.we_nan s.out.o_nan s.inp.num_nan := rfl

@[simp] theorem commitStruct_num_whole :
    (commitStruct s).inp.num_whole = writeField s.out.we_whole s.out.o_whole s.inp.num_whole := rfl

@[simp] theorem commitStruct_num_frac :
    (commitStruct s).inp.num_frac = writeField s.out.we_frac s.out.o_frac s.inp.num_frac := rfl

/-! ## The struct flags the host clears (R186) -/

@[simp] theorem clearStructFlags_out : (clearStructFlags s).out = s.out := rfl

@[simp] theorem clearStructFlags_op : (clearStructFlags s).inp.op = s.inp.op := rfl

@[simp] theorem clearStructFlags_a : (clearStructFlags s).inp.a = s.inp.a := rfl

@[simp] theorem clearStructFlags_b : (clearStructFlags s).inp.b = s.inp.b := rfl

@[simp] theorem clearStructFlags_mant : (clearStructFlags s).inp.mant = s.inp.mant := rfl

@[simp] theorem clearStructFlags_exp : (clearStructFlags s).inp.exp = s.inp.exp := rfl

@[simp] theorem clearStructFlags_sgn : (clearStructFlags s).inp.sgn = s.inp.sgn := rfl

@[simp] theorem clearStructFlags_num_present : (clearStructFlags s).inp.num_present = s.inp.num_present := rfl

@[simp] theorem clearStructFlags_num_neg : (clearStructFlags s).inp.num_neg = s.inp.num_neg := rfl

@[simp] theorem clearStructFlags_num_inf : (clearStructFlags s).inp.num_inf = 0#1 := rfl

@[simp] theorem clearStructFlags_num_nan : (clearStructFlags s).inp.num_nan = 0#1 := rfl

@[simp] theorem clearStructFlags_num_whole : (clearStructFlags s).inp.num_whole = s.inp.num_whole := rfl

@[simp] theorem clearStructFlags_num_frac : (clearStructFlags s).inp.num_frac = s.inp.num_frac := rfl

/-! ## One struct field (R28, R138) -/

@[simp] theorem writeField_written {n : Nat} (x old : BitVec n) : writeField (.driven 1#1) (.driven x) old = x := rfl

@[simp] theorem writeField_kept {n : Nat} (p : Port n) (old : BitVec n) : writeField (.driven 0#1) p old = old := by
  cases p <;> rfl

@[simp] theorem writeField_undriven {n : Nat} (p : Port n) (old : BitVec n) : writeField .undriven p old = old := by
  cases p <;> rfl

/-! ## Presenting a transaction (R56) -/

variable (t : Transaction)

@[simp] theorem present_out : (present t s).out = s.out := rfl

@[simp] theorem present_inp : (present t s).inp = { presentOperands t s.inp with op := encode t.instr } := rfl

/-! ## Ports (R32) -/

@[simp] theorem mayShow_undriven {n : Nat} (x : BitVec n) : (Port.undriven : Port n).mayShow x = true := rfl

@[simp] theorem mayShow_driven {n : Nat} (x y : BitVec n) : (Port.driven x).mayShow y = (x == y) := rfl

@[simp] theorem isDriven_undriven {n : Nat} : (Port.undriven : Port n).isDriven = false := rfl

@[simp] theorem isDriven_driven {n : Nat} (x : BitVec n) : (Port.driven x).isDriven = true := rfl

end Sys2Proof.Laws
end

