-- ==== Sys2Proof/Laws/Exec.lean ====
section
/-!
SUPPORT. Everything a completion, an instruction and a step can do, said once: the ten operations answer a next
state whose inputs are unchanged and whose outputs are a function of the inputs; the six reserved codes refuse.
-/

namespace Sys2Proof.Laws

open Sys2Proof.Machine

/-- The outputs of an operation as a function of the input ports; none for a reserved code (R25, R58). -/
def outputsOf (i : Instr) (p : InPorts) : Option OutPorts :=
  match i with
  | .classify => some (withFlags .idle p.a)
  | .unpack => some (unpackOut p.a)
  | .align =>
    some { OutPorts.idle with
      m1 := .driven (alignPair p.a p.b).m1, m2 := .driven (alignPair p.a p.b).m2
      e_sh := .driven (expPort (alignPair p.a p.b).e) }
  | .reasm => some (outResult (reassemble p.mant (sextExp p.exp) p.sgn))
  | .neg => some (outResult (negValue p.a))
  | .add => some (outResult (addValue p.a p.b))
  | .sub => some (outResult (subValue p.a p.b))
  | .mul => some (outResult (mulValue p.a p.b))
  | .n2f => some (outResult (n2fValue p.num_present p.num_neg p.num_inf p.num_nan p.num_whole p.num_frac))
  | .f2n => some (f2nOut p.a p.num_present)
  | .reservedA => none
  | .reservedB => none
  | .reservedC => none
  | .reservedD => none
  | .reservedE => none
  | .reservedF => none

/-- A completion answers exactly one next state. -/
theorem complete_next {s t : State} {o : OutPorts} :
    complete s o = .next t ↔ t = { s with out := { o with op_illegal := .driven 0#1 } } := by
  unfold complete
  constructor
  · intro h; cases h; rfl
  · rintro rfl; rfl

/-- Everything `exec` can do (R25, R57, R58). -/
theorem exec_eq (i : Instr) (s : State) :
    exec i s = match outputsOf i s.inp with
      | some o => complete s o
      | none => refuseReserved (encode i) := by
  cases i <;> rfl

theorem outputsOf_isSome (i : Instr) (p : InPorts) : (outputsOf i p).isSome = i.wf := by
  cases i <;> rfl

/-- An instruction that answers a next state is one of the ten operations, leaves the inputs alone, and its outputs
are the function of the inputs with `op_illegal` low. -/
theorem exec_next {i : Instr} {s t : State} (h : exec i s = .next t) :
    ∃ o, outputsOf i s.inp = some o ∧ i.wf = true ∧ t.inp = s.inp ∧
      t.out = { o with op_illegal := .driven 0#1 } := by
  rw [exec_eq] at h
  cases ho : outputsOf i s.inp with
  | none => rw [ho] at h; simp [refuseReserved] at h
  | some o =>
    rw [ho] at h
    have ht := complete_next.1 h
    refine ⟨o, rfl, ?_, ?_, ?_⟩
    · rw [← outputsOf_isSome i s.inp, ho]; rfl
    · rw [ht]
    · rw [ht]

/-- A well-formed instruction completes in every state. -/
theorem exec_completes (i : Instr) (s : State) (h : i.wf = true) : ∃ t, exec i s = .next t := by
  have hs : (outputsOf i s.inp).isSome = true := by rw [outputsOf_isSome, h]
  obtain ⟨o, ho⟩ := Option.isSome_iff_exists.1 hs
  exact ⟨_, by rw [exec_eq, ho]; exact complete_next.2 rfl⟩

/-- No instruction stops with a fault: there is none. -/
theorem exec_no_fault (i : Instr) (s : State) (φ : Fault) : exec i s ≠ .fault φ := by cases φ

/-- Everything a step can do (R56). -/
theorem step_next {s t : State} (h : step s = .next t) :
    ∃ o, outputsOf (decodeOp s.inp.op) s.inp = some o ∧ (decodeOp s.inp.op).wf = true ∧ t.inp = s.inp ∧
      t.out = { o with op_illegal := .driven 0#1 } :=
  exec_next h

/-- Presenting a transaction and stepping evaluates its operation on the presented ports (R56). -/
theorem transact_eq (t : Transaction) (s : State) : transact t s = exec t.instr (present t s) := by
  simp [transact, step]

end Sys2Proof.Laws
end

