-- ==== Sys2Proof/Laws/PerInstr.lean ====
section
/-!
SUPPORT. The per-instruction family `OpCodeRow`: each instruction's row of the operation code table
(spec/30_encoding.md R57, R58).
-/

namespace Sys2Proof.Laws.OpCodeRow

/-- The instruction's code decodes to it from the port, from a number and from a byte, and the instruction is
well-formed exactly when its code is below 0xA. -/
def Statement (i : Instr) : Prop :=
  decodeOp (encode i) = i ∧ decodeWord (encode i).toNat = .ok i ∧
    decodeBytes [BitVec.ofNat 8 (encode i).toNat] = .ok i ∧ decodeTableWord 8 (encode i).toNat = some i ∧
    (i.wf = true ↔ (encode i).toNat < 10)

theorem classify : Statement .classify := by unfold Statement; decide
theorem unpack : Statement .unpack := by unfold Statement; decide
theorem align : Statement .align := by unfold Statement; decide
theorem reasm : Statement .reasm := by unfold Statement; decide
theorem neg : Statement .neg := by unfold Statement; decide
theorem add : Statement .add := by unfold Statement; decide
theorem sub : Statement .sub := by unfold Statement; decide
theorem mul : Statement .mul := by unfold Statement; decide
theorem n2f : Statement .n2f := by unfold Statement; decide
theorem f2n : Statement .f2n := by unfold Statement; decide
theorem reservedA : Statement .reservedA := by unfold Statement; decide
theorem reservedB : Statement .reservedB := by unfold Statement; decide
theorem reservedC : Statement .reservedC := by unfold Statement; decide
theorem reservedD : Statement .reservedD := by unfold Statement; decide
theorem reservedE : Statement .reservedE := by unfold Statement; decide
theorem reservedF : Statement .reservedF := by unfold Statement; decide

end Sys2Proof.Laws.OpCodeRow
end

