-- ==== Sys2Proof/Laws/Results.lean ====
section
/-!
SUPPORT. The next state of each operation and the result of each transaction, in the words the statements use
(`delivered`, `deliveredResult`, `resultOf` of Safety.lean).
-/

namespace Sys2Proof.Laws

open Sys2Proof.Machine

variable (s : State)

theorem complete_eq_delivered (o : OutPorts) : complete s o = .next (delivered s o) := rfl

theorem complete_eq_deliveredResult (v : Enc) : complete s (outResult v) = .next (deliveredResult s v) := rfl

/-! ## One instruction -/

theorem exec_classify : exec .classify s = .next (delivered s (withFlags .idle s.inp.a)) := rfl

theorem exec_unpack : exec .unpack s = .next (delivered s (unpackOut s.inp.a)) := rfl

theorem exec_align : exec .align s = .next (delivered s { OutPorts.idle with
    m1 := .driven (alignPair s.inp.a s.inp.b).m1, m2 := .driven (alignPair s.inp.a s.inp.b).m2
    e_sh := .driven (expPort (alignPair s.inp.a s.inp.b).e) }) := rfl

theorem exec_reasm :
    exec .reasm s = .next (deliveredResult s (reassemble s.inp.mant (sextExp s.inp.exp) s.inp.sgn)) := rfl

theorem exec_neg : exec .neg s = .next (deliveredResult s (negValue s.inp.a)) := rfl

theorem exec_add : exec .add s = .next (deliveredResult s (addValue s.inp.a s.inp.b)) := rfl

theorem exec_sub : exec .sub s = .next (deliveredResult s (subValue s.inp.a s.inp.b)) := rfl

theorem exec_mul : exec .mul s = .next (deliveredResult s (mulValue s.inp.a s.inp.b)) := rfl

theorem exec_n2f : exec .n2f s = .next (deliveredResult s
    (n2fValue s.inp.num_present s.inp.num_neg s.inp.num_inf s.inp.num_nan s.inp.num_whole s.inp.num_frac)) := rfl

theorem exec_f2n : exec .f2n s = .next (delivered s (f2nOut s.inp.a s.inp.num_present)) := rfl

/-! ## One transaction -/

/-- The next state of a transaction in whose outputs `r` is driven holds the result. -/
theorem resultOf_of_next {t : Transaction} {u : State} {v : Enc} (h : transact t s = .next u)
    (hr : u.out.r = .driven v) : resultOf t s = some v := by
  rw [resultOf, h]
  simp only
  rw [hr]

@[simp] theorem resultOf_reasm (m : Acc) (e : ExpPort) (g : Bit) :
    resultOf (.reasm m e g) s = some (reassemble m (sextExp e) g) :=
  resultOf_of_next s (transact_eq _ s) rfl

@[simp] theorem resultOf_neg (a : Enc) : resultOf (.neg a) s = some (negValue a) :=
  resultOf_of_next s (transact_eq _ s) rfl

@[simp] theorem resultOf_add (a b : Enc) : resultOf (.add a b) s = some (addValue a b) :=
  resultOf_of_next s (transact_eq _ s) rfl

@[simp] theorem resultOf_sub (a b : Enc) : resultOf (.sub a b) s = some (subValue a b) :=
  resultOf_of_next s (transact_eq _ s) rfl

@[simp] theorem resultOf_mul (a b : Enc) : resultOf (.mul a b) s = some (mulValue a b) :=
  resultOf_of_next s (transact_eq _ s) rfl

@[simp] theorem resultOf_n2f (n : NumStruct) :
    resultOf (.n2f n) s = some (n2fValue n.present n.neg n.inf n.nan n.whole n.frac) :=
  resultOf_of_next s (transact_eq _ s) rfl

/-! ## A NaN result is `CANON_NAN` (R53) -/

theorem mulValue_nan (a b : Enc) (h : isNaN (mulValue a b) = true) : mulValue a b = Config.canonNan := by
  unfold mulValue at *
  simp only at *
  split_ifs at h ⊢ <;> simp_all
  exfalso
  obtain ⟨h1, -⟩ := alignPair_spec a b
  rw [mulGeneral, reassemble_not_nan _ _ _ (by omega)] at h
  cases h

theorem addValue_nan (a b : Enc) (h : isNaN (addValue a b) = true) : addValue a b = Config.canonNan := by
  unfold addValue at *
  simp only at *
  split_ifs at h ⊢ <;> simp_all
  · revert h; decide
  · revert h; decide
  · revert h; decide
  · exfalso
    obtain ⟨h1, -⟩ := alignPair_spec a b
    rw [addGeneral, reassemble_not_nan _ _ _ (by omega)] at h
    cases h

theorem n2fValue_nan (p g i n : Bit) (w f : Acc) (h : isNaN (n2fValue p g i n w f) = true) :
    n2fValue p g i n w f = Config.canonNan := by
  unfold n2fValue at *
  split_ifs at h ⊢ with h1 h2 h3 h4 <;> simp_all
  have hw : w.toNat < 256 := h3.2
  obtain ⟨P, hP, hlo, hhi⟩ := struct_number w f hw (by tauto)
  rw [n2fGeneral_eq _ _ _ P hP hlo hhi] at h
  split at h
  · rw [isNaN_compose] at h; simp at h
  · rw [isNaN_compose] at h
    have : ∀ k, 1 ≤ k → k ≤ 14 → (BitVec.ofNat 4 k == 15#4) = false := by
      intro k h1 h2; interval_cases k <;> rfl
    rw [this _ (by omega) (by omega)] at h
    simp at h

end Sys2Proof.Laws
end

