-- ==== Sys2Proof/Tests/Slice0.lean ====
section
/-!
SUPPORT. Tests of one step each, with expected values from spec/95_test_vectors.md and the examples of the rules, and
for every obligation that has hypotheses a state and operands that meet them.
-/

namespace Sys2Proof.Tests

open Sys2Proof.Machine Sys2Proof.Laws

/-! ## States built from the ports of one transaction -/

/-- The host presents operation `i` on operands `a` and `b`, right after reset. -/
def onAB (i : Instr) (a b : Enc) : State :=
  { State.reset with inp := { InPorts.zero with op := encode i, a := a, b := b } }

/-- The host presents `REASM mant, exp, sgn`, right after reset. -/
def onMant (mant : Acc) (exp : ExpPort) (sgn : Bit) : State :=
  { State.reset with inp := { InPorts.zero with op := encode .reasm, mant := mant, exp := exp, sgn := sgn } }

/-- The host presents `N2F` of a struct, right after reset. -/
def onStruct (present neg inf nan : Bit) (whole frac : Acc) : State :=
  { State.reset with
    inp :=
      { InPorts.zero with
        op := encode .n2f, num_present := present, num_neg := neg, num_inf := inf, num_nan := nan
        num_whole := whole, num_frac := frac } }

/-- The host presents `F2N a, present`, right after reset. -/
def onF2n (a : Enc) (present : Bit) : State :=
  { State.reset with inp := { InPorts.zero with op := encode .f2n, a := a, num_present := present } }

/-! ## Well-formedness: the check refuses each ill-formed term (R58) -/

theorem test_wf_refuses_reserved :
    Instr.wf .reservedA = false ∧ Instr.wf .reservedB = false ∧ Instr.wf .reservedC = false ∧
    Instr.wf .reservedD = false ∧ Instr.wf .reservedE = false ∧ Instr.wf .reservedF = false := by decide

theorem test_wf_accepts_operations :
    Instr.wf .classify = true ∧ Instr.wf .unpack = true ∧ Instr.wf .align = true ∧ Instr.wf .reasm = true ∧
    Instr.wf .neg = true ∧ Instr.wf .add = true ∧ Instr.wf .sub = true ∧ Instr.wf .mul = true ∧
    Instr.wf .n2f = true ∧ Instr.wf .f2n = true := by decide

/-! ## Decoding: each row's word, bit by bit from R57 (`op` in bits 3:0) -/

theorem test_decode_predicates : decodeTableWord 8 0b00000000 = some .classify := by decide

theorem test_decode_bridge :
    decodeTableWord 8 0b00000001 = some .unpack ∧ decodeTableWord 8 0b00000010 = some .align ∧
    decodeTableWord 8 0b00000011 = some .reasm := by decide

theorem test_decode_arithmetic :
    decodeTableWord 8 0b00000100 = some .neg ∧ decodeTableWord 8 0b00000101 = some .add ∧
    decodeTableWord 8 0b00000110 = some .sub ∧ decodeTableWord 8 0b00000111 = some .mul := by decide

theorem test_decode_converters :
    decodeTableWord 8 0b00001000 = some .n2f ∧ decodeTableWord 8 0b00001001 = some .f2n := by decide

theorem test_decode_reserved :
    decodeTableWord 8 0b00001010 = some .reservedA ∧ decodeTableWord 8 0b00001011 = some .reservedB ∧
    decodeTableWord 8 0b00001100 = some .reservedC ∧ decodeTableWord 8 0b00001101 = some .reservedD ∧
    decodeTableWord 8 0b00001110 = some .reservedE ∧ decodeTableWord 8 0b00001111 = some .reservedF := by decide

theorem test_decode_rejects_by_name :
    decodeBytes [] = .error .empty ∧ decodeBytes [0x10#8] = .error (.bitsAboveOp4 16) ∧
    decodeBytes [0x07#8, 0x00#8] = .error (.tooLong 2) := by decide

/-! ## One step per operation -/

/-- V-CLS-2: `CLASS 0x400`, negative zero. -/
theorem test_class_negative_zero :
    step (onAB .classify 0x400#11 0) = .next (delivered (onAB .classify 0x400#11 0) { OutPorts.idle with
      is_nan := .driven 0, is_inf := .driven 0, is_denorm := .driven 1, is_neg := .driven 1
      is_zero := .driven 1 }) := rfl

/-- V-CLS-16: `CLASS 0x7C1`, a NaN with its sign bit. -/
theorem test_class_negative_nan :
    step (onAB .classify 0x7C1#11 0) = .next (delivered (onAB .classify 0x7C1#11 0) { OutPorts.idle with
      is_nan := .driven 1, is_inf := .driven 0, is_denorm := .driven 0, is_neg := .driven 1
      is_zero := .driven 0 }) := rfl

/-- V-UNP-7: `UNPACK 0x5E0` (-1.5). -/
theorem test_unpack_normal :
    step (onAB .unpack 0x5E0#11 0) = .next (delivered (onAB .unpack 0x5E0#11 0) { OutPorts.idle with
      u_sign := .driven 1, u_whole := .driven 1, u_frac := .driven 0x80000000, u_exp := .driven 0
      is_nan := .driven 0, is_inf := .driven 0, is_denorm := .driven 0, is_neg := .driven 1
      is_zero := .driven 0 }) := rfl

/-- V-UNP-3: `UNPACK 0x001`, the smallest denormal; its exponent is -6, 0xFA on the port. -/
theorem test_unpack_denormal :
    step (onAB .unpack 0x001#11 0) = .next (delivered (onAB .unpack 0x001#11 0) { OutPorts.idle with
      u_sign := .driven 0, u_whole := .driven 0, u_frac := .driven 0x04000000, u_exp := .driven 0xFA
      is_nan := .driven 0, is_inf := .driven 0, is_denorm := .driven 1, is_neg := .driven 0
      is_zero := .driven 0 }) := rfl

/-- V-ALN-1: `ALIGN 0x1E0, 0x140`. -/
theorem test_align_worked_example :
    step (onAB .align 0x1E0#11 0x140#11) = .next (delivered (onAB .align 0x1E0#11 0x140#11) { OutPorts.idle with
      m1 := .driven 6, m2 := .driven 1, e_sh := .driven 0xFE }) := rfl

/-- V-ALN-11: `ALIGN 0x3BF, 0x001`, the most shifts and the largest mantissa. -/
theorem test_align_extremes :
    step (onAB .align 0x3BF#11 0x001#11) = .next (delivered (onAB .align 0x3BF#11 0x001#11) { OutPorts.idle with
      m1 := .driven 1040384, m2 := .driven 1, e_sh := .driven 0xF4 }) := rfl

/-- V-RSM-17: `REASM 3, -13, 1`, truncated toward zero into a denormal. -/
theorem test_reasm_truncates_denormal :
    step (onMant 3 0xF3 1) = .next (deliveredResult (onMant 3 0xF3 1) 0x401#11) := rfl

/-- V-RSM-36: `REASM 0xFFFFFFFF, -38, 0`, just under 2^-6. -/
theorem test_reasm_largest_denormal :
    step (onMant 0xFFFFFFFF 0xDA 0) = .next (deliveredResult (onMant 0xFFFFFFFF 0xDA 0) 0x03F#11) := rfl

/-- V-NEG-7: a NaN keeps its fraction. -/
theorem test_neg_nan :
    step (onAB .neg 0x3C1#11 0) = .next (deliveredResult (onAB .neg 0x3C1#11 0) 0x7C1#11) := rfl

/-- V-ADD-11: -254 + 2^-12 truncates toward zero to -252. -/
theorem test_add_truncates_toward_zero :
    step (onAB .add 0x7BF#11 0x001#11) = .next (deliveredResult (onAB .add 0x7BF#11 0x001#11) 0x7BE#11) := rfl

/-- V-ADD-13: -0 + +0 is +0 (guard A4, C2). -/
theorem test_add_opposite_zeros :
    step (onAB .add 0x400#11 0x000#11) = .next (deliveredResult (onAB .add 0x400#11 0x000#11) 0x000#11) := rfl

/-- V-SUB-2: 0.25 - 1.5 = -1.25. -/
theorem test_sub_order :
    step (onAB .sub 0x140#11 0x1E0#11) = .next (deliveredResult (onAB .sub 0x140#11 0x1E0#11) 0x5D0#11) := rfl

/-- V-SUB-8: -0 - +0 is -0 (guard A7). -/
theorem test_sub_negative_zero :
    step (onAB .sub 0x400#11 0x000#11) = .next (deliveredResult (onAB .sub 0x400#11 0x000#11) 0x400#11) := rfl

/-- V-MUL-3: -1.5 × 1.5 = -2.25. -/
theorem test_mul_worked_example :
    step (onAB .mul 0x5E0#11 0x1E0#11) = .next (deliveredResult (onAB .mul 0x5E0#11 0x1E0#11) 0x608#11) := rfl

/-- V-MUL-21: 63 × 2^-12 × 0.5 truncates to 31 × 2^-12. -/
theorem test_mul_denormal_truncates :
    step (onAB .mul 0x03F#11 0x180#11) = .next (deliveredResult (onAB .mul 0x03F#11 0x180#11) 0x01F#11) := rfl

/-- V-N2F-16: 3.14159 truncates to 3.125. -/
theorem test_n2f_truncates :
    step (onStruct 1 0 0 0 3 0x243F6A88) = .next (deliveredResult (onStruct 1 0 0 0 3 0x243F6A88) 0x224#11) := rfl

/-- V-N2F-26: a negative magnitude below 2^-12 underflows to -0. -/
theorem test_n2f_underflow :
    step (onStruct 1 1 0 0 0 0x000FFFFF) = .next (deliveredResult (onStruct 1 1 0 0 0 0x000FFFFF) 0x400#11) := rfl

/-- V-F2N-6: 12.625. -/
theorem test_f2n_worked_example :
    step (onF2n 0x2A5#11 1) = .next (delivered (onF2n 0x2A5#11 1) { OutPorts.idle with
      o_neg := .driven 0, o_whole := .driven 12, o_frac := .driven 0xA0000000, we_neg := .driven 1
      we_inf := .driven 0, we_nan := .driven 0, we_whole := .driven 1, we_frac := .driven 1
      err := .driven 0 }) := rfl

/-- V-F2N-19: with no struct, an Infinity fails too: presence is tested first. -/
theorem test_f2n_absent_struct :
    step (onF2n 0x3C0#11 0) = .next (delivered (onF2n 0x3C0#11 0) { OutPorts.idle with
      we_neg := .driven 0, we_inf := .driven 0, we_nan := .driven 0, we_whole := .driven 0, we_frac := .driven 0
      err := .driven 1 }) := rfl

/-- V-RSV-1 and V-RSV-6: the first and the last reserved code. -/
theorem test_reserved_refused :
    step (onAB .reservedA 0 0) = .refused (.reservedOp 0xA 1) ∧
    step (onAB .reservedF 0 0) = .refused (.reservedOp 0xF 1) := ⟨rfl, rfl⟩

/-! ## Ports and the host's side -/

/-- U3: an undriven port may show any value, a driven one its own only. -/
theorem test_undriven_shows_any :
    (Port.undriven : Port 1).mayShow 0 = true ∧ (Port.undriven : Port 1).mayShow 1 = true ∧
    (Port.driven 1 : Port 1).mayShow 1 = true ∧ (Port.driven 1 : Port 1).mayShow 0 = false := by decide

/-- R48, U8: bits 10:0 of a host word are the value; a word with a bit above is refused. -/
theorem test_encFromWord : encFromWord 0x7FF = some 0x7FF#11 ∧ encFromWord 0x800 = none := by decide

/-- R129: the host presents 1 for any non-zero flag. -/
theorem test_flagBit : flagBit 0 = 0 ∧ flagBit 1 = 1 ∧ flagBit 256 = 1 := by decide

/-- R8: bits 9:6 of `CANON_NAN` are 15 and bits 5:0 are not 0, whatever the free bits are. -/
theorem test_canonNan_is_nan : expField Config.canonNan = 15#4 ∧ fracField Config.canonNan ≠ 0#6 :=
  (isNaN_iff _).1 isNaN_canonNan

/-- R186: the host clears the two flags of a struct before it reuses it. -/
theorem test_clearStructFlags :
    (clearStructFlags (onStruct 1 1 1 1 3 5)).inp = { (onStruct 1 1 0 0 3 5).inp with op := 8 } := by decide

/-! ## Witnesses: for each obligation that has hypotheses, a case that meets them

One theorem per obligation, `witness_<Obligation>`; a conjunction has one part per clause, at a boundary of the
clause's range. -/

theorem witness_StepRunsTheOperationOnOp :
    (onAB .mul 0 0).inp.op = encode .mul ∧ decodeTableWord 8 0x0 = some .classify ∧
    decodeTableWord 8 0xF = some .reservedF := by decide

theorem witness_DecodeAndEncodeAgree : decodeWord 15 = .ok .reservedF ∧ decodeWord 0 = .ok .classify := by decide

theorem witness_EveryTransactionCompletes :
    (Instr.f2n = .classify ∨ Instr.f2n = .unpack ∨ Instr.f2n = .align ∨ Instr.f2n = .reasm ∨ Instr.f2n = .neg ∨
      Instr.f2n = .add ∨ Instr.f2n = .sub ∨ Instr.f2n = .mul ∨ Instr.f2n = .n2f ∨ Instr.f2n = .f2n) := by decide

theorem witness_StepCompletesExactlyBelowReserved :
    (onF2n 0 0).inp.op.toNat < 10 ∧ (onF2n 0 0).inp.op.toNat = 9 ∧ 10 ≤ (onAB .reservedA 0 0).inp.op.toNat ∧
    (onAB .reservedA 0 0).inp.op.toNat = 10 := by decide

theorem witness_OperationsDriveOnlyTheirPorts :
    exec .n2f (onStruct 1 0 0 0 1 0) = .next (deliveredResult (onStruct 1 0 0 0 1 0) 0x1C0#11) := rfl

theorem witness_OutputsDependOnlyOnPortsRead :
    agreeOnRead .neg (onAB .neg 0x1E0#11 0x001#11).inp (onF2n 0x1E0#11 1).inp ∧
    (onAB .neg 0x1E0#11 0x001#11) ≠ (onF2n 0x1E0#11 1) ∧
    exec .neg (onAB .neg 0x1E0#11 0x001#11) =
      .next (deliveredResult (onAB .neg 0x1E0#11 0x001#11) 0x5E0#11) :=
  ⟨rfl, by decide, rfl⟩

theorem witness_StepKeepsInputsAndIsIdempotent :
    step (onAB .mul 0x1C0#11 0x1C0#11) = .next (deliveredResult (onAB .mul 0x1C0#11 0x1C0#11) 0x1C0#11) := rfl

/-- The premise is met after reset and after a transaction, and both steps answer a next state. -/
theorem witness_StepKeepsOutputsCoherent :
    State.reset.coherent ∧ (∃ t, step State.reset = .next t) ∧
    (deliveredResult (onAB .neg 0x3C1#11 0) 0x7C1#11).coherent ∧
    (∃ t, step (deliveredResult (onAB .neg 0x3C1#11 0) 0x7C1#11) = .next t) :=
  ⟨Or.inl rfl, ⟨_, rfl⟩, Or.inr ⟨by decide, by decide +kernel⟩, ⟨_, rfl⟩⟩

/-- The NaN clause of the invariant is not empty: `CANON_NAN` is accepted after `ADD`, and refused is a NaN that the
operation on the `op` port cannot give (R53): any NaN after `REASM`, and after `NEG` the operand unflipped. -/
theorem test_coherent_nan_clause :
    nanIsCanonical .add 0x3C0#11 (.driven Config.canonNan) = true ∧
    (nanIsCanonical .add 0x3C0#11 (.driven 0x3C1#11) = true → 0x3C1#11 = Config.canonNan) ∧
    nanIsCanonical .reasm 0#11 (.driven 0x3C1#11) = false ∧
    nanIsCanonical .neg 0x3C1#11 (.driven 0x3C1#11) = false ∧ nanIsCanonical .neg 0x3C1#11 (.driven 0x7C1#11) = true := by
  refine ⟨?_, fun h => ?_, by decide, by decide, by decide⟩
  · simp [nanIsCanonical]
  · simpa [nanIsCanonical, show isNaN 0x3C1#11 = true by decide] using h

theorem witness_NaNResultsAreCanonical :
    (exec .neg (onAB .neg 0x3C1#11 0) = .next (deliveredResult (onAB .neg 0x3C1#11 0) 0x7C1#11) ∧
      isNaN 0x7C1#11 = true) ∧
    (exec .add (onAB .add 0x3C0#11 0x7C0#11) =
        .next (deliveredResult (onAB .add 0x3C0#11 0x7C0#11) Config.canonNan) ∧
      isNaN Config.canonNan = true) :=
  ⟨⟨rfl, by decide⟩, rfl, isNaN_canonNan⟩

theorem witness_EveryPatternHasItsClass :
    (expField 0x400#11 = 0#4 ∧ fracField 0x400#11 = 0#6) ∧ (expField 0x03F#11 = 0#4 ∧ fracField 0x03F#11 ≠ 0#6) ∧
    (1 ≤ (expField 0x040#11).toNat ∧ (expField 0x3BF#11).toNat ≤ 14 ∧ 1 ≤ (expField 0x3BF#11).toNat) ∧
    (expField 0x7C0#11 = 15#4 ∧ fracField 0x7C0#11 = 0#6) ∧ (expField 0x3C1#11 = 15#4 ∧ fracField 0x3C1#11 ≠ 0#6) := by
  decide

theorem witness_FiniteEncodingsAreUnique :
    isFinite 0x3BF#11 = true ∧ (isDenormalized 0x001#11 = true ∧ isZero 0x001#11 = false) ∧
    (isFinite 0x040#11 = true ∧ isDenormalized 0x040#11 = false) ∧ val 0x001#11 ≠ 0 := by
  refine ⟨by decide, by decide, by decide, ?_⟩
  rw [val_eq, show magnitude12 0x001#11 = 1 by decide, if_neg (by decide)]
  norm_num

theorem witness_PredicatesRelateAsStated :
    isZero 0x400#11 = true ∧ isNaN 0x3C1#11 = true ∧ isInfinity 0x7C0#11 = true ∧ isFinite 0x3BF#11 = true := by decide

theorem witness_ExtractHoldsMagnitude :
    expField 0x03F#11 = 0#4 ∧ expField 0x040#11 ≠ 0#4 ∧ expField 0x3C0#11 = 15#4 ∧ isFinite 0x3BF#11 = true := by decide

theorem witness_AlignAnswersExactMagnitudes :
    isFinite (onAB .align 0x3BF#11 0x001#11).inp.a = true ∧ isFinite (onAB .align 0x3BF#11 0x001#11).inp.b = true := by
  decide

theorem witness_AlignMatchesClosedForm :
    significand (onAB .align 0x001#11 0x000#11).inp.a ≠ 0 ∧ significand (onAB .align 0x000#11 0x3FF#11).inp.b ≠ 0 := by
  decide

theorem witness_AlignOutputsBounded :
    isFinite (onAB .align 0x3BF#11 0x07F#11).inp.a = true ∧ isFinite (onAB .align 0x3BF#11 0x07F#11).inp.b = true := by
  decide

theorem witness_AlignOneOperandForm :
    significand 0x001#11 ≠ 0 ∧ significand 0x400#11 = 0 ∧ isFinite 0x3BF#11 = true := by decide

theorem witness_AlignZeroAndSpecialOperands :
    (isZero (onAB .align 0x000#11 0x1C0#11).inp.a = true ∧ isZero (onAB .align 0x000#11 0x1C0#11).inp.b = false) ∧
    (isZero (onAB .align 0x001#11 0x400#11).inp.b = true ∧ isZero (onAB .align 0x001#11 0x400#11).inp.a = false) ∧
    (isZero (onAB .align 0x000#11 0x400#11).inp.a = true ∧ isZero (onAB .align 0x000#11 0x400#11).inp.b = true) ∧
    isFinite (onAB .align 0x3C0#11 0x1C0#11).inp.a = false ∧ isFinite (onAB .align 0x001#11 0x7FF#11).inp.b = false := by
  decide

theorem witness_AlignSwapsWithItsOperands :
    transact (.align 0x140#11 0x1E0#11) State.reset = .next (delivered (onAB .align 0x140#11 0x1E0#11)
      { OutPorts.idle with m1 := .driven 1, m2 := .driven 6, e_sh := .driven 0xFE }) := rfl

/-- Clause by clause: a mantissa, the two ends of the denormal exponents, the two ends of the structs. -/
theorem witness_EveryLoopEndsByItsCondition :
    (0xFFFFFFFF#32 ≠ 0#32) ∧ (-128 ≤ (-128 : Int) ∧ (-128 : Int) ≤ -6) ∧ (-128 ≤ (-6 : Int) ∧ (-6 : Int) ≤ -6) ∧
    ((255#32).toNat < 256 ∧ ¬ (255#32 = 0#32 ∧ 0xFFFFFFFF#32 = 0#32)) ∧
    ((0#32).toNat < 256 ∧ ¬ (0#32 = 0#32 ∧ 1#32 = 0#32)) ∧ isFinite 0x3BF#11 = true := by decide

theorem witness_ReasmZeroMantissaGivesSignedZero : (onMant 0 0x80 1).inp.mant = 0#32 := by decide

theorem witness_ReasmOverflowsAt256 :
    (onMant 256 0 0).inp.mant ≠ 0#32 ∧
    15 ≤ (onMant 256 0 0).inp.exp.toInt + ilog2 (onMant 256 0 0).inp.mant.toNat + 7 ∧
    (onMant 255 0 0).inp.mant ≠ 0#32 ∧
    ((onMant 255 0 0).inp.mant.toNat : ℚ) * 2 ^ (onMant 255 0 0).inp.exp.toInt < 256 := by
  refine ⟨by decide, by decide, by decide, ?_⟩
  rw [show (onMant 255 0 0).inp.mant.toNat = 255 by decide, show (onMant 255 0 0).inp.exp.toInt = 0 by decide]
  norm_num

/-- The rows of R106: a zero mantissa, and `en` at both ends of each row: 8; 7 and -6; -7 and -12; -13. -/
theorem witness_ReasmMatchesClosedForm :
    (onMant 0 5 1).inp.mant = 0#32 ∧ (onMant 1 8 0).inp.mant ≠ 0#32 ∧
    (onMant 256 0 0).inp.exp.toInt + ilog2 (onMant 256 0 0).inp.mant.toNat = 8 ∧
    (onMant 255 0 0).inp.exp.toInt + ilog2 (onMant 255 0 0).inp.mant.toNat = 7 ∧
    (onMant 1 0xFA 0).inp.exp.toInt + ilog2 (onMant 1 0xFA 0).inp.mant.toNat = -6 ∧
    (onMant 1 0xF9 0).inp.exp.toInt + ilog2 (onMant 1 0xF9 0).inp.mant.toNat = -7 ∧
    (onMant 1 0xF4 0).inp.exp.toInt + ilog2 (onMant 1 0xF4 0).inp.mant.toNat = -12 ∧
    (onMant 1 0xF3 0).inp.exp.toInt + ilog2 (onMant 1 0xF3 0).inp.mant.toNat = -13 := by decide

theorem witness_ReasmTruncatesTowardZero :
    ((onMant 1 0xF3 0).inp.mant.toNat : ℚ) * 2 ^ (onMant 1 0xF3 0).inp.exp.toInt < 2 ^ (-12 : Int) ∧
    (254 : ℚ) ≤ (onMant 255 0 0).inp.mant.toNat * 2 ^ (onMant 255 0 0).inp.exp.toInt ∧
    ((onMant 255 0 0).inp.mant.toNat : ℚ) * 2 ^ (onMant 255 0 0).inp.exp.toInt < 256 := by
  rw [show (onMant 1 0xF3 0).inp.mant.toNat = 1 by decide, show (onMant 1 0xF3 0).inp.exp.toInt = -13 by decide,
    show (onMant 255 0 0).inp.mant.toNat = 255 by decide, show (onMant 255 0 0).inp.exp.toInt = 0 by decide]
  norm_num

theorem witness_ReasmInvertsAlign : isFinite 0x3BF#11 = true ∧ isFinite 0x400#11 = true := by decide

/-- One struct per guard, each at the edge: absent; NaN flag before Infinity flag; Infinity flag; whole part 256;
both parts zero; 255.999. -/
theorem witness_N2fGuardsInOrder :
    (onStruct 0 1 1 0 300 5).inp.num_present = 0#1 ∧
    (let p := (onStruct 1 0 1 1 0 0).inp
     p.num_present = 1#1 ∧ p.num_nan = 1#1) ∧
    (let p := (onStruct 1 1 1 0 0 0).inp
     p.num_present = 1#1 ∧ p.num_nan = 0#1 ∧ p.num_inf = 1#1) ∧
    (let p := (onStruct 1 0 0 0 256 0).inp
     p.num_present = 1#1 ∧ p.num_nan = 0#1 ∧ 256 ≤ p.num_whole.toNat) ∧
    (let p := (onStruct 1 1 0 0 0 0).inp
     p.num_present = 1#1 ∧ p.num_nan = 0#1 ∧ p.num_inf = 0#1 ∧ p.num_whole = 0#32 ∧ p.num_frac = 0#32) ∧
    (let p := (onStruct 1 0 0 0 255 0xFFFFFFFF).inp
     p.num_present = 1#1 ∧ p.num_nan = 0#1 ∧ p.num_inf = 0#1 ∧ p.num_neg = 0#1 ∧ p.num_whole = 255#32 ∧
       p.num_frac = 0xFFFFFFFF#32) := by decide

/-- No guard of `N2F` holds of the struct on these ports. -/
def noGuard (p : InPorts) : Bool :=
  p.num_present == 1#1 && p.num_nan == 0#1 && p.num_inf == 0#1 && decide (p.num_whole.toNat < 256)
    && !(p.num_whole == 0#32 && p.num_frac == 0#32)

/-- The premises at the largest struct (`P` = 7), at 2^-6 (`P` = -6), just below it (`P` = -7) and at the smallest
(`P` = -32). -/
theorem witness_N2fMatchesClosedForm :
    (noGuard (onStruct 1 0 0 0 255 0xFFFFFFFF).inp = true ∧ (ilog2 (255 * 2 ^ 32 + 0xFFFFFFFF) : Int) - 32 = 7) ∧
    (noGuard (onStruct 1 0 0 0 0 0x04000000).inp = true ∧ (ilog2 (0 * 2 ^ 32 + 0x04000000) : Int) - 32 = -6) ∧
    (noGuard (onStruct 1 1 0 0 0 0x03FFFFFF).inp = true ∧ (ilog2 (0 * 2 ^ 32 + 0x03FFFFFF) : Int) - 32 = -7) ∧
    (noGuard (onStruct 1 1 0 0 0 1).inp = true ∧ (ilog2 (0 * 2 ^ 32 + 1) : Int) - 32 = -32) := by decide +kernel

theorem witness_F2nAbsentStructFails : (onF2n 0x3C0#11 0).inp.num_present = 0#1 := by decide

theorem witness_F2nWritesSignAndSpecialFlag :
    ((onF2n 0x400#11 1).inp.num_present = 1#1) ∧
    ((onF2n 0x7C0#11 1).inp.num_present = 1#1 ∧ isInfinity (onF2n 0x7C0#11 1).inp.a = true) ∧
    ((onF2n 0x7FF#11 1).inp.num_present = 1#1 ∧ isNaN (onF2n 0x7FF#11 1).inp.a = true) := by decide

theorem witness_F2nDeliversExactMagnitude :
    (onF2n 0x3BF#11 1).inp.num_present = 1#1 ∧ isFinite (onF2n 0x3BF#11 1).inp.a = true ∧
    isFinite (onF2n 0x001#11 1).inp.a = true := by decide

theorem witness_F2nKeepsUnwrittenStructFields :
    (∃ t, exec .f2n (onF2n 0x1C0#11 0) = .next t) ∧ (onF2n 0x1C0#11 0).inp.num_present = 0#1 ∧
    (∃ t, exec .f2n (onF2n 0x3BF#11 1) = .next t) ∧ (onF2n 0x3BF#11 1).inp.num_present = 1#1 ∧
    isFinite (onF2n 0x3BF#11 1).inp.a = true ∧ isInfinity (onF2n 0x3C0#11 1).inp.a = true ∧
    isNaN (onF2n 0x3C1#11 1).inp.a = true :=
  ⟨⟨_, rfl⟩, by decide, ⟨_, rfl⟩, by decide, by decide, by decide, by decide⟩

theorem witness_StructRoundTripReturnsValue :
    isFinite 0x400#11 = true ∧ (onStruct 1 1 0 0 3 5).inp.num_inf = 0#1 ∧ (onStruct 1 1 0 0 3 5).inp.num_nan = 0#1 := by
  decide

theorem witness_NegFlipsOnlyTheSign :
    transact (.neg 0x3C1#11) State.reset = .next (deliveredResult (onAB .neg 0x3C1#11 0) 0x7C1#11) := rfl

/-- The seven rows of R142's table, in its order, and both orders of the mixed rows. -/
theorem witness_MulGuardTable :
    isNaN 0x3C1#11 = true ∧ (isInfinity 0x3C0#11 = true ∧ isZero 0x400#11 = true) ∧
    (isZero 0x400#11 = true ∧ isInfinity 0x7C0#11 = true) ∧ (isInfinity 0x7C0#11 = true ∧ isInfinity 0x3C0#11 = true) ∧
    (isInfinity 0x7C0#11 = true ∧ isFinite 0x001#11 = true ∧ isZero 0x001#11 = false) ∧
    (isFinite 0x3BF#11 = true ∧ isZero 0x3BF#11 = false ∧ isInfinity 0x3C0#11 = true) ∧
    (isZero 0x400#11 = true ∧ isZero 0x000#11 = true) ∧
    (isZero 0x000#11 = true ∧ isFinite 0x7BF#11 = true ∧ isZero 0x7BF#11 = false) := by decide

theorem witness_MulReassemblesAlignedProduct :
    isFinite (onAB .mul 0x3BF#11 0x07F#11).inp.a = true ∧ isZero (onAB .mul 0x3BF#11 0x07F#11).inp.a = false ∧
    isFinite (onAB .mul 0x3BF#11 0x07F#11).inp.b = true ∧ isZero (onAB .mul 0x3BF#11 0x07F#11).inp.b = false := by decide

theorem witness_MulTruncatesExactProduct :
    isFinite (onAB .mul 0x401#11 0x001#11).inp.a = true ∧ isZero (onAB .mul 0x401#11 0x001#11).inp.a = false ∧
    isFinite (onAB .mul 0x401#11 0x001#11).inp.b = true ∧ isZero (onAB .mul 0x401#11 0x001#11).inp.b = false := by decide

theorem witness_MulCommutesAndSignIsXor :
    (isFinite 0x401#11 = true ∧ isZero 0x401#11 = false ∧ isFinite 0x001#11 = true ∧ isZero 0x001#11 = false ∧
      resultOf (.mul 0x401#11 0x001#11) State.reset = some 0x400#11) ∧ isNaN 0x3C0#11 = false := by decide +kernel

theorem witness_MulWidthsNeverWrap :
    isFinite (onAB .align 0x380#11 0x7BF#11).inp.a = true ∧ isZero (onAB .align 0x380#11 0x7BF#11).inp.a = false ∧
    isFinite (onAB .align 0x380#11 0x7BF#11).inp.b = true ∧ isZero (onAB .align 0x380#11 0x7BF#11).inp.b = false ∧
    (∃ t, exec .align (onAB .align 0x380#11 0x7BF#11) = .next t) :=
  ⟨by decide, by decide, by decide, by decide, ⟨_, rfl⟩⟩

/-- The rows of R151's table that are stated by class, in its order. -/
theorem witness_AddGuardTable :
    isNaN 0x7FF#11 = true ∧
    (isFinite 0x400#11 = true ∧ isFinite 0x000#11 = true ∧ 0x400#11 = 0x000#11 ^^^ 0x400#11) ∧
    isFinite 0x7BF#11 = true ∧
    (isZero 0x400#11 = true ∧ isFinite 0x001#11 = true ∧ isZero 0x001#11 = false) ∧
    (isFinite 0x5C0#11 = true ∧ isZero 0x5C0#11 = false ∧ isZero 0x000#11 = true) ∧
    (isFinite 0x1C1#11 = true ∧ isZero 0x1C1#11 = false ∧ isFinite 0x5C0#11 = true ∧ isZero 0x5C0#11 = false ∧
      0x1C1#11 ≠ 0x5C0#11 ^^^ 0x400#11) := by decide

theorem witness_AddReassemblesSignedSum :
    isFinite (onAB .add 0x5E0#11 0x140#11).inp.a = true ∧ isZero (onAB .add 0x5E0#11 0x140#11).inp.a = false ∧
    isFinite (onAB .add 0x5E0#11 0x140#11).inp.b = true ∧ isZero (onAB .add 0x5E0#11 0x140#11).inp.b = false ∧
    (onAB .add 0x5E0#11 0x140#11).inp.a ≠ (onAB .add 0x5E0#11 0x140#11).inp.b ^^^ 0x400#11 := by decide

theorem witness_AddTruncatesExactSum :
    isFinite (onAB .add 0x7BF#11 0x001#11).inp.a = true ∧ isZero (onAB .add 0x7BF#11 0x001#11).inp.a = false ∧
    isFinite (onAB .add 0x7BF#11 0x001#11).inp.b = true ∧ isZero (onAB .add 0x7BF#11 0x001#11).inp.b = false ∧
    (onAB .add 0x7BF#11 0x001#11).inp.a ≠ (onAB .add 0x7BF#11 0x001#11).inp.b ^^^ 0x400#11 := by decide

/-- Two neighbouring denormals of opposite signs: the smallest sum there is, below 2⁻⁶. -/
theorem witness_AddGeneralPathNeverZero :
    (isFinite (onAB .add 0x002#11 0x401#11).inp.a = true ∧ isZero (onAB .add 0x002#11 0x401#11).inp.a = false ∧
      isFinite (onAB .add 0x002#11 0x401#11).inp.b = true ∧ isZero (onAB .add 0x002#11 0x401#11).inp.b = false ∧
      (onAB .add 0x002#11 0x401#11).inp.a ≠ (onAB .add 0x002#11 0x401#11).inp.b ^^^ 0x400#11) ∧
    |val (onAB .add 0x002#11 0x401#11).inp.a + val (onAB .add 0x002#11 0x401#11).inp.b| < 2 ^ (-6 : Int) := by
  refine ⟨by decide, ?_⟩
  rw [show (onAB .add 0x002#11 0x401#11).inp.a = 0x002#11 from rfl,
    show (onAB .add 0x002#11 0x401#11).inp.b = 0x401#11 from rfl, val_eq, val_eq 0x401#11,
    show magnitude12 0x002#11 = 2 by decide, show magnitude12 0x401#11 = 1 by decide, if_neg (by decide),
    if_pos (by decide)]
  norm_num [abs_lt]

theorem witness_AddWidthsNeverWrap :
    isFinite (onAB .align 0x3BF#11 0x001#11).inp.a = true ∧ isZero (onAB .align 0x3BF#11 0x001#11).inp.a = false ∧
    isFinite (onAB .align 0x3BF#11 0x001#11).inp.b = true ∧ isZero (onAB .align 0x3BF#11 0x001#11).inp.b = false ∧
    (∃ t, exec .align (onAB .align 0x3BF#11 0x001#11) = .next t) :=
  ⟨by decide, by decide, by decide, by decide, ⟨_, rfl⟩⟩

theorem witness_SubCornerCases :
    isFinite 0x400#11 = true ∧ isNaN 0x3C1#11 = true ∧ (isFinite 0x3BF#11 = true ∧ isZero 0x3BF#11 = false) := by decide

theorem witness_SourcePropertiesHold :
    resultOf (.neg 0x7FF#11) State.reset = some 0x3FF#11 ∧
    (isFinite 0x401#11 = true ∧ isZero 0x401#11 = false ∧ isFinite 0x3BF#11 = true ∧ isZero 0x3BF#11 = false) ∧
    (isFinite 0x7BF#11 = true ∧ 0x7BF#11 ≠ 0x400#11) ∧ resultOf (.neg 0x400#11) State.reset = some 0x000#11 ∧
    isFinite 0x400#11 = true ∧ isNaN 0x7FF#11 = true := by decide

end Sys2Proof.Tests
end

section
/-!
PROOF. Noninterference of the ports (spec/10_state.md R25): an operation's outputs are a function of the ports it
reads.
-/

namespace Sys2Proof.Proofs

open Sys2Proof.Machine Sys2Proof.Laws

/-- Operation by operation, `outputsOf` looks at no port outside the operand column of R57. -/
theorem outputsOf_congr {i : Instr} {p q : InPorts} (h : agreeOnRead i p q) : outputsOf i p = outputsOf i q := by
  cases i with
  | classify | unpack | neg =>
    have ha : p.a = q.a := h
    simp only [outputsOf, ha]
  | align | add | sub | mul =>
    obtain ⟨ha, hb⟩ := h
    simp only [outputsOf, ha, hb]
  | reasm =>
    obtain ⟨hmant, hexp, hsgn⟩ := h
    simp only [outputsOf, hmant, hexp, hsgn]
  | n2f =>
    obtain ⟨hpresent, hneg, hinf, hnan, hwhole, hfrac⟩ := h
    simp only [outputsOf, hpresent, hneg, hinf, hnan, hwhole, hfrac]
  | f2n =>
    obtain ⟨ha, hpresent⟩ := h
    simp only [outputsOf, ha, hpresent]
  | reservedA | reservedB | reservedC | reservedD | reservedE | reservedF => rfl

/-- Settles O9: what `exec` delivers is `outputsOf` on the input ports, and that depends only on the ports read. -/
theorem outputsDependOnlyOnPortsRead : Obligations.OutputsDependOnlyOnPortsRead := by
  intro i s₁ s₂ t₁ hagree h₁
  obtain ⟨o₁, ho₁, hwf, -, hout₁⟩ := exec_next h₁
  obtain ⟨t₂, h₂⟩ := exec_completes i s₂ hwf
  obtain ⟨o₂, ho₂, -, -, hout₂⟩ := exec_next h₂
  have ho : o₂ = o₁ := by
    apply Option.some.inj
    rw [← ho₁, ← ho₂, outputsOf_congr hagree]
  exact ⟨t₂, h₂, by rw [hout₂, hout₁, ho]⟩

end Sys2Proof.Proofs
end

section
/-!
PROOF. Encodings (spec/30_encoding.md R51 to R54, R58, R62): the refusal of the reserved codes, the
pseudo-operations, the canonical NaN, the classes of R51 and the values of R54.
-/

namespace Sys2Proof.Proofs

open Sys2Proof.Machine Sys2Proof.Laws

/-! ## Reserved codes (R58) -/

/-- Settles O6: each reserved code has an arm of its own, which refuses with that code. -/
theorem reservedCodesAreRefused : Obligations.ReservedCodesAreRefused :=
  fun _ => ⟨rfl, rfl, rfl, rfl, rfl, rfl⟩

/-! ## Pseudo-operations (R62) -/

theorem transact_classify (v : Enc) (s : State) :
    transact (.classify v) s = .next (delivered (present (.classify v) s) (withFlags .idle v)) :=
  transact_eq _ s

theorem transact_neg (v : Enc) (s : State) :
    transact (.neg v) s = .next (deliveredResult (present (.neg v) s) (negValue v)) :=
  transact_eq _ s

theorem transact_add (a b : Enc) (s : State) :
    transact (.add a b) s = .next (deliveredResult (present (.add a b) s) (addValue a b)) :=
  transact_eq _ s

/-- Settles O14: `SUB` is `ADD` of the negated operand by definition (R161), the five predicates stand side by side
in the outputs of one `CLASS`, and `ALIGN1` is expanded to `ALIGN`. -/
theorem pseudoOperationsExpand : Obligations.PseudoOperationsExpand := by
  refine ⟨fun a b s => ?_, fun v s => ⟨?_, rfl⟩⟩
  · exact ⟨_, _, negValue b, addValue a (negValue b), transact_neg b s, rfl, transact_add a _ _, rfl,
      resultOf_sub s a b⟩
  · have h := transact_classify v s
    exact ⟨_, h, rfl, h, rfl, h, rfl, h, rfl, h, rfl, h⟩

/-! ## Counting patterns by their fields (R50) -/

/-- A predicate that tests each field for membership in a set is true of as many patterns as there are choices of
the three fields (R50). -/
theorem countP_of_fields (p : Enc → Bool) (S : Finset (BitVec 1)) (E : Finset (BitVec 4)) (F : Finset (BitVec 6))
    (h : ∀ v, p v = true ↔ signField v ∈ S ∧ expField v ∈ E ∧ fracField v ∈ F) :
    (List.finRange 2048).countP (fun n => p (BitVec.ofFin n)) = S.card * E.card * F.card := by
  have hcard := (List.nodup_finRange 2048).card_eq_countP (P := fun n => p (BitVec.ofFin n) = true)
  simp only [List.toFinset_finRange, Bool.decide_eq_true] at hcard
  rw [← hcard, Nat.mul_assoc, ← Finset.card_product, ← Finset.card_product]
  refine Finset.card_nbij' (fun n => (signField (.ofFin n), expField (.ofFin n), fracField (.ofFin n)))
    (fun x => (compose x.1 x.2.1 x.2.2).toFin) (fun n hn => ?_) (fun x hx => ?_) (fun n _ => ?_) (fun x _ => ?_)
  · simpa [h] using hn
  · simpa [h] using hx
  · simp [compose_fields]
  · simp

/-- Two signs and 63 fractions (R53). -/
theorem countP_isNaN : (List.finRange 2048).countP (fun n => isNaN (BitVec.ofFin n)) = 126 :=
  countP_of_fields isNaN Finset.univ {15#4} {0#6}ᶜ (fun v => by simp [isNaN_iff])

/-! ## NaN results (R53) -/

/-- A transaction's operation is none of the reserved codes (R57, R61). -/
theorem transaction_instr_wf (t : Transaction) : t.instr.wf = true := by cases t <;> rfl

theorem transact_completes (t : Transaction) (s : State) : ∃ u, transact t s = .next u := by
  rw [transact_eq]
  exact exec_completes _ _ (transaction_instr_wf t)

theorem isNaN_negValue (v : Enc) : isNaN (negValue v) = isNaN v := by simp [isNaN, negValue]

theorem subValue_nan (a b : Enc) (h : isNaN (subValue a b) = true) : subValue a b = Config.canonNan :=
  addValue_nan a (negValue b) h

@[simp] theorem f2nOut_r (v : Enc) (present : Bit) : (f2nOut v present).r = .undriven := by
  unfold f2nOut; split_ifs <;> rfl

@[simp] theorem unpackOut_r (v : Enc) : (unpackOut v).r = .undriven := rfl

/-- The result of an operation, and its operation: six drive `r`, each with its own value (R28, R57). -/
theorem outputsOf_r {i : Instr} {p : InPorts} {o : OutPorts} {v : Enc} (h : outputsOf i p = some o)
    (hr : o.r = .driven v) :
    (i = .reasm ∧ v = reassemble p.mant (sextExp p.exp) p.sgn) ∨ (i = .neg ∧ v = negValue p.a) ∨
    (i = .add ∧ v = addValue p.a p.b) ∨ (i = .sub ∧ v = subValue p.a p.b) ∨ (i = .mul ∧ v = mulValue p.a p.b) ∨
    (i = .n2f ∧ v = n2fValue p.num_present p.num_neg p.num_inf p.num_nan p.num_whole p.num_frac) := by
  cases i with
  | reasm | neg | add | sub | mul | n2f =>
    obtain rfl := Option.some.inj h
    simpa using hr.symm
  | classify | unpack | align | f2n =>
    obtain rfl := Option.some.inj h
    simp at hr
  | reservedA | reservedB | reservedC | reservedD | reservedE | reservedF => cases h

/-- Settles O13: of the six operations that drive `r`, `REASM` never gives a NaN, `NEG` gives one only of a NaN, and
the other four give `CANON_NAN`. -/
theorem naNResultsAreCanonical : Obligations.NaNResultsAreCanonical := by
  refine ⟨isNaN_canonNan, countP_isNaN, transact_completes, fun i s t v hexec hr hnan => ?_⟩
  obtain ⟨o, ho, -, -, hout⟩ := exec_next hexec
  rw [hout] at hr
  rcases outputsOf_r ho hr with ⟨rfl, rfl⟩ | ⟨rfl, rfl⟩ | ⟨rfl, rfl⟩ | ⟨rfl, rfl⟩ | ⟨rfl, rfl⟩ | ⟨rfl, rfl⟩
  · rw [reassemble_not_nan _ _ _ (sextExp_ge _)] at hnan
    cases hnan
  · rw [isNaN_negValue] at hnan
    exact .inl ⟨rfl, hnan, rfl⟩
  · exact .inr ⟨by simp, addValue_nan _ _ hnan⟩
  · exact .inr ⟨by simp, subValue_nan _ _ hnan⟩
  · exact .inr ⟨by simp, mulValue_nan _ _ hnan⟩
  · exact .inr ⟨by simp, n2fValue_nan _ _ _ _ _ _ hnan⟩

/-! ## The rows of R51 -/

section Rows

variable {v : Enc}

theorem leadBit_of_exp_zero (h : expField v = 0#4) : leadBit v = 0 := by simp [leadBit, h]

theorem leadBit_of_exp_ne_zero (h : expField v ≠ 0#4) : leadBit v = 1 := by simp [leadBit, h]

theorem unbiasedExp_of_exp_zero (h : expField v = 0#4) : unbiasedExp v = -6 := by
  simp [unbiasedExp, h, Config.denormExp]

theorem unbiasedExp_of_exp_ne_zero (h : expField v ≠ 0#4) : unbiasedExp v = ((expField v).toNat : Int) - 7 := by
  simp [unbiasedExp, h, Config.bias]

theorem val_of_exp_zero (h : expField v = 0#4) :
    val v = (-1) ^ (signField v).toNat * (fracField v).toNat * 2 ^ (-12 : Int) := by
  rw [val, significand, leadBit_of_exp_zero h, unbiasedExp_of_exp_zero h, Nat.zero_mul, Nat.zero_add]
  norm_num

theorem val_of_exp_ne_zero (h : expField v ≠ 0#4) :
    val v = (-1) ^ (signField v).toNat * (64 + (fracField v).toNat) * 2 ^ (((expField v).toNat : Int) - 13) := by
  rw [val, significand, leadBit_of_exp_ne_zero h, unbiasedExp_of_exp_ne_zero h, sub_sub]
  push_cast
  norm_num

end Rows

/-- The two Infinities by their fields, as `isNaN` and `isZero` are defined (R52, R72). -/
theorem isInfinity_eq_fields (v : Enc) : isInfinity v = (expField v == 15#4 && fracField v == 0#6) := by
  rw [Bool.eq_iff_iff, isInfinity_iff]; simp

/-- The class is read off three tests: exponent field 0, exponent field 15, fraction field 0 (R51). -/
theorem exactly_one_class (v : Enc) :
    [isZero v, isDenormalized v && !isZero v, isFinite v && !isDenormalized v, isInfinity v, isNaN v].count true
      = 1 := by
  rw [isInfinity_eq_fields]
  simp only [isZero, isDenormalized, isFinite, isNaN, Config.expSpecial, bne]
  have hexcl : ¬ ((expField v == 0#4) = true ∧ (expField v == 15#4) = true) := by
    rintro ⟨h0, h15⟩
    rw [beq_iff_eq] at h0 h15
    exact absurd (h0.symm.trans h15) (by decide)
  generalize (expField v == 0#4) = zero at *
  generalize (expField v == 15#4) = special at *
  generalize (fracField v == 0#6) = noFrac
  revert zero special noFrac
  decide

/-- Settles O15, row by row: the exponent and fraction fields decide the predicates, the leading bit and the value. -/
theorem everyPatternHasItsClass : Obligations.EveryPatternHasItsClass := by
  intro v
  refine ⟨exactly_one_class v, fun he hf => ?_, fun he hf => ?_, fun hlo hhi => ?_, fun he hf => ?_, fun he hf => ?_⟩
  · refine ⟨(isZero_iff v).2 ⟨he, hf⟩, (isDenormalized_iff v).2 he, leadBit_of_exp_zero he,
      unbiasedExp_of_exp_zero he, ?_⟩
    rw [val_of_exp_zero he, hf]; simp
  · exact ⟨by simp [isZero, hf], (isDenormalized_iff v).2 he, leadBit_of_exp_zero he, unbiasedExp_of_exp_zero he,
      val_of_exp_zero he⟩
  · have h0 : expField v ≠ 0#4 := by intro hc; rw [hc] at hlo; simp at hlo
    have h15 : expField v ≠ 15#4 := by intro hc; rw [hc] at hhi; simp at hhi
    exact ⟨by simp [isDenormalized, h0], (isFinite_iff v).2 h15, leadBit_of_exp_ne_zero h0,
      unbiasedExp_of_exp_ne_zero h0, val_of_exp_ne_zero h0⟩
  · exact ⟨(isInfinity_iff v).2 ⟨he, hf⟩, by simp [isNaN, hf], by simp [isFinite, he, Config.expSpecial],
      by simp [isDenormalized, he]⟩
  · exact ⟨(isNaN_iff v).2 ⟨he, hf⟩, by simp [isInfinity_eq_fields, hf], by simp [isFinite, he, Config.expSpecial],
      by simp [isDenormalized, he]⟩

/-! ## Magnitudes in units of 2⁻¹² (R54) -/

/-- The largest finite magnitude is 127 × 2^13 units, which is 254. -/
theorem magnitude12_le_of_finite {v : Enc} (h : isFinite v = true) : magnitude12 v ≤ 127 * 2 ^ 13 := by
  have hexp : (unbiasedExp v + 6).toNat ≤ 13 := by have := unbiasedExp_finite v h; omega
  exact Nat.mul_le_mul (by have := significand_lt v; omega) (Nat.pow_le_pow_right (by omega) hexp)

theorem abs_val_le_of_finite {v : Enc} (h : isFinite v = true) : |val v| ≤ 254 := by
  have hm : (magnitude12 v : ℚ) ≤ 254 * 4096 := by exact_mod_cast magnitude12_le_of_finite h
  rw [abs_val]
  linarith

/-- A denormal's fraction counts its units. -/
theorem magnitude12_of_exp_zero {v : Enc} (h : expField v = 0#4) : magnitude12 v = (fracField v).toNat := by
  simp [magnitude12, significand, leadBit_of_exp_zero h, unbiasedExp_of_exp_zero h]

/-- A normal has its leading bit, of 64 units or more. -/
theorem le_magnitude12_of_exp_ne_zero {v : Enc} (h : expField v ≠ 0#4) : 64 ≤ magnitude12 v := by
  have hsig : 64 ≤ significand v := by unfold significand; rw [leadBit_of_exp_ne_zero h]; omega
  calc 64 ≤ significand v := hsig
    _ ≤ magnitude12 v := Nat.le_mul_of_pos_right _ (by positivity)

theorem abs_val_le_abs_val_iff (u v : Enc) : |val u| ≤ |val v| ↔ magnitude12 u ≤ magnitude12 v := by
  rw [abs_val, abs_val, div_le_div_iff_of_pos_right (by norm_num), Nat.cast_le]

theorem val_of_positive {v : Enc} (h : signField v = 0#1) : val v = (magnitude12 v : ℚ) / 4096 := by
  rw [val_eq, h]; simp

/-- "Every finite value is an integer multiple of 2^-12" (R54). -/
theorem val_on_grid (v : Enc) : ∃ n : Int, val v = n * 2 ^ (-12 : Int) := by
  refine ⟨(if signField v = 1#1 then -1 else 1) * magnitude12 v, ?_⟩
  rw [val_eq, div_eq_mul_inv]
  push_cast
  norm_num

/-- Flipping bit 10 negates the value (R12, R140). -/
theorem val_flip (v : Enc) : val (v ^^^ 0x400#11) = -val v := by
  have hsign : ∀ s : Bit, (-1 : ℚ) ^ (s ^^^ 1#1).toNat = -(-1) ^ s.toNat := by
    intro s
    rcases bit_cases s with rfl | rfl <;> simp
  simp only [val, significand, leadBit, unbiasedExp, signField_flip, expField_flip, fracField_flip, hsign, neg_mul]

/-- A non-zero finite value has one encoding (R54): its magnitude fixes exponent and fraction, and with the other
sign the pattern would have the negative value. -/
theorem eq_of_val_eq {u v : Enc} (hu : isFinite u = true) (hv : isFinite v = true) (h0 : val u ≠ 0)
    (h : val u = val v) : u = v := by
  have habs : |val u| = |val v| := by rw [h]
  have hm : magnitude12 u = magnitude12 v :=
    le_antisymm ((abs_val_le_abs_val_iff u v).1 habs.le) ((abs_val_le_abs_val_iff v u).1 habs.ge)
  obtain ⟨he, hf⟩ := magnitude12_inj u v hu hv hm
  refine enc_ext ?_ he hf
  by_contra hs
  have hneg : val u = -val v := by rw [(eq_flip_iff u v).2 ⟨hs, he, hf⟩, val_flip]
  exact h0 (by linarith)

/-- Settles O16, every comparison of magnitudes in units of 2⁻¹². -/
theorem finiteEncodingsAreUnique : Obligations.FiniteEncodingsAreUnique := by
  refine ⟨?_, ?_, ?_, ?_, ?_, fun v hv => ⟨abs_val_le_of_finite hv, val_on_grid v⟩, fun v hd hz => ?_,
    fun v _ hd => ?_, fun u v hu hv h0 h => eq_of_val_eq hu hv h0 h⟩
  · rw [val_of_positive (by decide), show magnitude12 0x001#11 = 1 by decide]; norm_num
  · rw [val_of_positive (by decide), show magnitude12 0x03F#11 = 63 by decide]; norm_num
  · rw [val_of_positive (by decide), show magnitude12 0x040#11 = 64 by decide]; norm_num
  · rw [val_of_positive (by decide), show magnitude12 0x1C0#11 = 4096 by decide]; norm_num
  · rw [val_of_positive (by decide), show magnitude12 0x3BF#11 = 254 * 4096 by decide]; norm_num
  · have hfrac : magnitude12 v = (fracField v).toNat := magnitude12_of_exp_zero ((isDenormalized_iff v).1 hd)
    have hpos : magnitude12 v ≠ 0 := by rw [ne_eq, magnitude12_eq_zero, hz]; decide
    rw [abs_val_le_abs_val_iff, abs_val_le_abs_val_iff, show magnitude12 0x001#11 = 1 by decide,
      show magnitude12 0x03F#11 = 63 by decide]
    omega
  · rw [abs_val_le_abs_val_iff, show magnitude12 0x040#11 = 64 by decide]
    exact le_magnitude12_of_exp_ne_zero (mt (isDenormalized_iff v).2 (by simp [hd]))

end Sys2Proof.Proofs
end

section
/-!
PROOF. The format predicates (spec/40_predicates.md R70 to R76): what `CLASS` drives, what each predicate tests and of
how many patterns it holds, and how the predicates relate.
-/

namespace Sys2Proof.Proofs

open Sys2Proof.Machine Sys2Proof.Laws

/-! ## CLASS (R70) -/

/-- R72 in patterns, with the two named Infinities written out. -/
theorem isInfinity_iff_pattern (v : Enc) : isInfinity v = true ↔ v = 0x3C0#11 ∨ v = 0x7C0#11 := by
  simp [isInfinity, Config.posInf, Config.negInf]

/-- The bit of a test that decides `P` (R70: the predicate outputs are one bit wide). -/
theorem bit_eq_ite_of_iff {c : Bool} {P : Prop} [Decidable P] (h : c = true ↔ P) :
    bit c = if P then 1#1 else 0#1 := by
  rw [← if_congr h rfl rfl]
  cases c <;> rfl

/-- Settles O17: `CLASS` drives the bits of the five predicates, and each predicate decides its rule's test. -/
theorem classDrivesFivePredicates : Obligations.ClassDrivesFivePredicates := by
  intro s
  rw [exec_classify, withFlags, bit_eq_ite_of_iff (isNaN_iff _), bit_eq_ite_of_iff (isInfinity_iff_pattern _),
    bit_eq_ite_of_iff (isDenormalized_iff _), bit_eq_ite_of_iff (isNegative_iff _), bit_eq_ite_of_iff (isZero_iff _)]

/-! ## The tests and their counts (R71 to R75) -/

/-- Masking with `0x3FF` clears the sign field and keeps the other two. -/
theorem and_0x3FF_eq_compose (v : Enc) : v &&& 0x3FF#11 = compose 0#1 (expField v) (fracField v) := by
  refine enc_ext ?_ ?_ ?_
  · rw [signField_compose, signField, BitVec.extractLsb'_and,
      show BitVec.extractLsb' 10 1 0x3FF#11 = 0#1 by decide, BitVec.and_zero]
  · rw [expField_compose, expField, expField, BitVec.extractLsb'_and,
      show BitVec.extractLsb' 6 4 0x3FF#11 = BitVec.allOnes 4 by decide, BitVec.and_allOnes]
  · rw [fracField_compose, fracField, fracField, BitVec.extractLsb'_and,
      show BitVec.extractLsb' 0 6 0x3FF#11 = BitVec.allOnes 6 by decide, BitVec.and_allOnes]

/-- R75, the mask form: "equivalently (v & 0x3FF) == 0". -/
theorem isZero_iff_and_0x3FF (v : Enc) : isZero v = true ↔ v &&& 0x3FF#11 = 0#11 := by
  rw [isZero_iff, and_0x3FF_eq_compose, show (0#11 : Enc) = compose 0#1 0#4 0#6 by decide]
  constructor
  · rintro ⟨he, hf⟩
    rw [he, hf]
  · intro h
    exact (compose_inj h).2

/-- Two signs of the one special exponent with fraction 0 (R72). -/
theorem countP_isInfinity : (List.finRange 2048).countP (fun n => isInfinity (BitVec.ofFin n)) = 2 :=
  countP_of_fields isInfinity Finset.univ {15#4} {0#6} (fun v => by simp [isInfinity_iff])

/-- Two signs and 64 fractions (R73). -/
theorem countP_isDenormalized : (List.finRange 2048).countP (fun n => isDenormalized (BitVec.ofFin n)) = 128 :=
  countP_of_fields isDenormalized Finset.univ {0#4} Finset.univ (fun v => by simp [isDenormalized_iff])

/-- One sign, 16 exponents and 64 fractions (R74). -/
theorem countP_isNegative : (List.finRange 2048).countP (fun n => isNegative (BitVec.ofFin n)) = 1024 :=
  countP_of_fields isNegative {1#1} Finset.univ Finset.univ (fun v => by simp [isNegative_iff])

/-- Two signs (R75). -/
theorem countP_isZero : (List.finRange 2048).countP (fun n => isZero (BitVec.ofFin n)) = 2 :=
  countP_of_fields isZero Finset.univ {0#4} {0#6} (fun v => by simp [isZero_iff])

/-- Two signs, the 14 exponents 1 to 14 and 64 fractions (R76). -/
theorem countP_normal :
    (List.finRange 2048).countP (fun n => isFinite (BitVec.ofFin n) && !isDenormalized (BitVec.ofFin n)) = 1792 :=
  countP_of_fields (fun v => isFinite v && !isDenormalized v) Finset.univ {0#4, 15#4}ᶜ Finset.univ
    (fun v => by simp [isFinite, isDenormalized, Config.expSpecial, and_comm])

/-- Settles O18: the tests are the definitions' `_iff` lemmas, and each count is a product of field choices. -/
theorem predicatesTestTheirFields : Obligations.PredicatesTestTheirFields :=
  ⟨fun v => ⟨isNaN_iff v, isInfinity_iff_pattern v, isInfinity_iff v, isDenormalized_iff v, isNegative_iff v,
      isZero_iff v, isZero_iff_and_0x3FF v⟩,
    countP_isNaN, countP_isInfinity, countP_isDenormalized, countP_isNegative, countP_isZero⟩

/-! ## Relations between the predicates (R76) -/

theorem isDenormalized_of_isZero {v : Enc} (h : isZero v = true) : isDenormalized v = true :=
  (isDenormalized_iff v).2 ((isZero_iff v).1 h).1

theorem not_isNaN_and_isInfinity (v : Enc) : ¬ (isNaN v = true ∧ isInfinity v = true) := by
  rw [isNaN_iff, isInfinity_iff]
  rintro ⟨⟨-, hfrac⟩, -, hzero⟩
  exact hfrac hzero

theorem expField_eq_15_of_special {v : Enc} (h : isNaN v = true ∨ isInfinity v = true) : expField v = 15#4 := by
  rcases h with hnan | hinf
  · exact ((isNaN_iff v).1 hnan).1
  · exact ((isInfinity_iff v).1 hinf).1

theorem isFinite_iff_not_special (v : Enc) : isFinite v = true ↔ isNaN v = false ∧ isInfinity v = false := by
  rcases nan_or_inf_or_finite v with ⟨hn, hi, hf⟩ | ⟨hn, hi, hf⟩ | ⟨hn, hi, hf⟩ <;> simp [hn, hi, hf]

/-- A special is neither denormalized nor zero: its exponent field is 15 and theirs is 0. -/
theorem not_denormalized_nor_zero_of_exp_special {v : Enc} (h : expField v = 15#4) :
    isDenormalized v = false ∧ isZero v = false :=
  ⟨by simp [isDenormalized, h], by simp [isZero, h]⟩

theorem isNegative_flip (v : Enc) : isNegative (v ^^^ 0x400#11) = !isNegative v := by
  rw [isNegative, isNegative, signField_flip]
  rcases bit_cases (signField v) with hs | hs <;> rw [hs] <;> rfl

/-- The predicates that test no sign field do not see the sign bit. -/
theorem predicates_flip (v : Enc) :
    isNaN (v ^^^ 0x400#11) = isNaN v ∧ isInfinity (v ^^^ 0x400#11) = isInfinity v ∧
    isDenormalized (v ^^^ 0x400#11) = isDenormalized v ∧ isZero (v ^^^ 0x400#11) = isZero v :=
  ⟨isNaN_negValue v, by simp [isInfinity_eq_fields], by simp [isDenormalized], by simp [isZero]⟩

/-- Settles O19: a special has exponent field 15 and a zero or denormal 0, and only `isNegative` reads the sign. -/
theorem predicatesRelateAsStated : Obligations.PredicatesRelateAsStated := by
  refine ⟨fun v => ⟨isDenormalized_of_isZero, not_isNaN_and_isInfinity v, fun hspecial => ?_,
    isFinite_iff_not_special v, isNegative_flip v, predicates_flip v⟩,
    countP_isNaN, countP_isInfinity, countP_isDenormalized, countP_isZero, countP_normal⟩
  have hexp := expField_eq_15_of_special hspecial
  exact ⟨hexp, not_denormalized_nor_zero_of_exp_special hexp⟩

end Sys2Proof.Proofs
end

section
/-!
PROOF. The bridge (spec/41_bridge_align.md R81 to R96): what `SHR1` loses, what `Extract` and `UNPACK`
hold, and the mantissas and the exponent of `ALIGN`.
-/

namespace Sys2Proof.Proofs

open Sys2Proof.Machine Sys2Proof.Laws

/-! ## SHR1 (R81) -/

/-- Bit 0 of the fraction accumulator is bit 0 of the pair taken as one number. -/
theorem frac_bit_zero_iff_odd (x : Split) : x.f.getLsbD 0 = true ↔ splitNum x % 2 = 1 := by
  have hpar : splitNum x % 2 = x.f.toNat % 2 := by unfold splitNum; omega
  rw [hpar, BitVec.getLsbD, Nat.testBit_zero, decide_eq_true_iff]

theorem shr1_f_getLsbD_31 (x : Split) : (shr1 x).f.getLsbD 31 = x.w.getLsbD 0 := by
  simp [shr1]

/-- The dropped bit weighs `2^(e-32)`, one unit of the pair before the shift. -/
theorem splitVal_shr1 (x : Split) :
    splitVal (shr1 x) = splitVal x - (if x.f.getLsbD 0 then 2 ^ (x.e - 32) else 0) := by
  have hunit : (2 : ℚ) ^ (x.e - 32) = 2 ^ x.e / 2 ^ 32 := by
    rw [zpow_sub₀ two_ne_zero]; norm_num
  have hpair : (splitNum x : ℚ) = 2 * (splitNum x / 2 : ℕ) + (splitNum x % 2 : ℕ) := by
    exact_mod_cast (Nat.div_add_mod _ 2).symm
  rw [splitVal_num, splitVal_num, shr1_num, shr1_e, zpow_add_one₀ two_ne_zero, hunit, hpair]
  by_cases hodd : splitNum x % 2 = 1
  · rw [if_pos ((frac_bit_zero_iff_odd x).2 hodd), hodd]
    push_cast
    ring
  · rw [if_neg (mt (frac_bit_zero_iff_odd x).1 hodd), show splitNum x % 2 = 0 by omega]
    push_cast
    ring

/-- Settles O20: `SHR1` halves the pair as one number, and the remainder of that halving is the dropped bit. -/
theorem rightShiftKeepsValueButDroppedBit : Obligations.RightShiftKeepsValueButDroppedBit := by
  intro x
  refine ⟨shr1_e x, shr1_num x, shr1_f_getLsbD_31 x, splitVal_shr1 x, ?_⟩
  have hpos : (0 : ℚ) < 2 ^ (x.e - 32) := by positivity
  rw [splitVal_shr1, sub_eq_self]
  cases x.f.getLsbD 0 with
  | false => simp
  | true => simpa using hpos.ne'

/-! ## Extraction (R84) -/

theorem extract_w (v : Enc) : (extract v).w = if expField v = 0#4 then 0#32 else 1#32 := by
  by_cases h : expField v = 0#4
  · rw [if_pos h, extract, leadBit_of_exp_zero h]
  · rw [if_neg h, extract, leadBit_of_exp_ne_zero h]

theorem unbiasedExp_eq_ite (v : Enc) :
    unbiasedExp v = if expField v = 0#4 then (-6 : Int) else ((expField v).toNat : Int) - 7 := by
  by_cases h : expField v = 0#4
  · rw [if_pos h, unbiasedExp_of_exp_zero h]
  · rw [if_neg h, unbiasedExp_of_exp_ne_zero h]

/-- The magnitude in the significand's own units (R12, R91). -/
theorem abs_val_eq_significand (v : Enc) : |val v| = (significand v : ℚ) * 2 ^ unitExp v := by
  simp [val, unitExp, abs_mul, abs_zpow]

/-- The split number of any pattern stands for its magnitude, the sign left out (R84). -/
theorem splitVal_extract (v : Enc) : splitVal (extract v) = |val v| := by
  have hunit : (2 : ℚ) ^ unitExp v = 2 ^ unbiasedExp v / 2 ^ 6 := by
    rw [unitExp, zpow_sub₀ two_ne_zero]; norm_num
  rw [splitVal_num, extract_num, extract_e, abs_val_eq_significand, hunit]
  push_cast
  ring

/-- Settles O22, from the fields' cases of the leading bit and the exponent (R51) and the value of the pair. -/
theorem extractHoldsMagnitude : Obligations.ExtractHoldsMagnitude := by
  intro v
  obtain ⟨hlo, hhi⟩ := unbiasedExp_range v
  refine ⟨fun h => ⟨by rw [extract_w, if_pos h], unbiasedExp_of_exp_zero h⟩,
    fun h => ⟨by rw [extract_w, if_neg h], unbiasedExp_of_exp_ne_zero h⟩, fun h => ?_, rfl, hlo, hhi,
    fun _ => splitVal_extract v⟩
  have h0 : expField v ≠ 0#4 := by rw [h]; decide
  exact ⟨by rw [extract_w, if_neg h0], by rw [extract_e, unbiasedExp_of_exp_ne_zero h0, h]; rfl⟩

/-! ## UNPACK (R85) -/

/-- The unbiased exponent fits its port (R31, R84). -/
theorem expPort_unbiasedExp (v : Enc) : (expPort (unbiasedExp v)).toInt = unbiasedExp v := by
  obtain ⟨hlo, hhi⟩ := unbiasedExp_range v
  exact expPort_toInt _ (by omega) (by omega)

/-- Settles O23: `UNPACK` drives the fields of `extract` and the flags, and its exponent survives the eight bits. -/
theorem unpackDrivesExtractionAndFlags : Obligations.UnpackDrivesExtractionAndFlags := by
  intro s
  refine ⟨expPort (unbiasedExp s.inp.a), by rw [expPort_unbiasedExp, unbiasedExp_eq_ite], ?_⟩
  rw [exec_unpack, unpackOut, extract_w]
  rfl

/-! ## ALIGN (R90, R91, R96) -/

/-- Settles O24: the mantissas are exact (`alignPair_val`) and the shared exponent survives its port. -/
theorem alignAnswersExactMagnitudes : Obligations.AlignAnswersExactMagnitudes := by
  intro s
  refine ⟨_, _, _, exec_align s, fun _ _ => ?_⟩
  rw [expPort_alignPair]
  exact alignPair_val _ _

/-- A mantissa that is exact at exponent `E` is the significand times `2^(L - E)` (R91). -/
theorem mantissa_eq_significand_scaled {m : ℚ} {E : Int} {v : Enc} (h : m * 2 ^ E = |val v|) :
    m = significand v * 2 ^ (unitExp v - E) := by
  rw [zpow_sub₀ two_ne_zero, ← mul_div_assoc, ← abs_val_eq_significand, ← h,
    mul_div_cancel_right₀ _ (by positivity)]

/-- The shared exponent is the largest at which both values are integers: a mantissa is odd (R91). -/
theorem alignPair_odd {a b : Enc} (h : significand a ≠ 0 ∨ significand b ≠ 0) :
    (alignPair a b).m1.toNat % 2 = 1 ∨ (alignPair a b).m2.toNat % 2 = 1 := by
  obtain ⟨-, -, -, -, hodd | hodd | ⟨ha, hb, -⟩⟩ := alignPair_spec a b
  · exact .inl hodd
  · exact .inr hodd
  · exact absurd ⟨ha, hb⟩ (not_and_or.2 h)

/-- Settles O25: the exponent by `alignPair_closed`, each mantissa from its exactness. -/
theorem alignMatchesClosedForm : Obligations.AlignMatchesClosedForm := by
  intro s
  obtain ⟨hval1, hval2⟩ := alignPair_val s.inp.a s.inp.b
  refine ⟨_, _, _, exec_align s, ?_⟩
  rw [expPort_alignPair]
  exact ⟨alignPair_closed _ _, mantissa_eq_significand_scaled hval1, mantissa_eq_significand_scaled hval2,
    alignPair_odd⟩

theorem transact_align (a b : Enc) (s : State) :
    transact (.align a b) s = .next (delivered (present (.align a b) s) { OutPorts.idle with
      m1 := .driven (alignPair a b).m1, m2 := .driven (alignPair a b).m2
      e_sh := .driven (expPort (alignPair a b).e) }) :=
  transact_eq _ s

theorem alignPair_self_m2 (v : Enc) : (alignPair v v).m2 = (alignPair v v).m1 := by
  obtain ⟨-, hm1, -⟩ := alignPair_swap v v
  exact hm1.symm

/-- The closed form with one operand given twice (R96). -/
theorem alignPair_self_e (v : Enc) :
    (alignPair v v).e = if significand v = 0 then unbiasedExp v else unbiasedExp v - 6 + tz (significand v) := by
  rw [alignPair_closed, closedAlignExp, max_self, min_self, lowestBitExp, unitExp]
  split_ifs <;> rfl

theorem alignPair_self_odd {v : Enc} (h : significand v ≠ 0) : (alignPair v v).m1.toNat % 2 = 1 := by
  have hodd := alignPair_odd (Or.inl h : significand v ≠ 0 ∨ significand v ≠ 0)
  rwa [alignPair_self_m2, or_self] at hodd

/-- The one-operand mantissa is the significand without its trailing zeros (R96). -/
theorem alignPair_self_m1 {v : Enc} (h : significand v ≠ 0) :
    (alignPair v v).m1.toNat = significand v >>> tz (significand v) := by
  obtain ⟨-, -, hexact, -⟩ := alignPair_spec v v
  have hexp : ((alignPair v v).e + 12).toNat = tz (significand v) + (unbiasedExp v + 6).toNat := by
    have := unbiasedExp_range v
    rw [alignPair_self_e, if_neg h]
    omega
  rw [hexp, pow_add, ← mul_assoc] at hexact
  have hsig : (alignPair v v).m1.toNat * 2 ^ tz (significand v) = significand v :=
    Nat.eq_of_mul_eq_mul_right (by positivity) hexact
  rw [Nat.shiftRight_eq_div_pow]
  exact Nat.eq_div_of_mul_eq_left (by positivity) hsig

/-- A zero aligns with itself to mantissa 0 at its own exponent -6 (R96). -/
theorem alignPair_self_zero {v : Enc} (h : significand v = 0) :
    (alignPair v v).m1.toNat = 0 ∧ (alignPair v v).e = -6 := by
  obtain ⟨-, -, hexact, -, hodd⟩ := alignPair_spec v v
  have hm1 : (alignPair v v).m1.toNat = 0 := by simpa [h] using hexact
  rw [alignPair_self_m2, hm1] at hodd
  exact ⟨hm1, by simpa [h] using hodd⟩

/-- Settles O27: `ALIGN` of a value with itself, for a non-zero significand and for a zero. -/
theorem alignOneOperandForm : Obligations.AlignOneOperandForm := by
  intro v s
  refine ⟨(alignPair v v).m1, expPort (alignPair v v).e, _, transact_align v v s, rfl,
    congrArg Port.driven (alignPair_self_m2 v), rfl, ?_⟩
  rw [expPort_alignPair]
  exact ⟨fun h => ⟨alignPair_self_m1 h, alignPair_self_odd h, by rw [alignPair_self_e, if_neg h]⟩,
    alignPair_self_zero, fun _ => (alignPair_val v v).1.symm⟩

end Sys2Proof.Proofs
end

section
/-!
PROOF. Reassembly (spec/42_bridge_reassemble.md R101 to R112): zero and overflow, the closed form, truncation toward
zero, and the inverse of `ALIGN`.
-/

namespace Sys2Proof.Proofs

open Sys2Proof.Machine Sys2Proof.Laws

/-! ## Zero and overflow (R101, R103) -/

theorem signedZero_eq_ite (s : Bit) : signedZero s = if s = 1#1 then 0x400#11 else 0x000#11 := by
  rcases bit_cases s with rfl | rfl <;> rfl

theorem signedInf_eq_ite (s : Bit) : signedInf s = if s = 1#1 then 0x7C0#11 else 0x3C0#11 := by
  rcases bit_cases s with rfl | rfl <;> rfl

/-- Settles O31, by the first step of `reassemble`. -/
theorem reasmZeroMantissaGivesSignedZero : Obligations.ReasmZeroMantissaGivesSignedZero := by
  intro s hzero
  rw [exec_reasm, hzero, reassemble_zero, signedZero_eq_ite]

/-- The leading bit of a mantissa, moved by the exponent, is the leading bit of the number they stand for. -/
theorem two_zpow_le_scaled_iff {m : Nat} (hm : m ≠ 0) (n x : Int) :
    (2 : ℚ) ^ n ≤ m * 2 ^ x ↔ n ≤ x + ilog2 m := by
  have hpos : (0 : ℚ) < m := by positivity
  have hlead : (2 : ℚ) ^ (n - x) ≤ m ↔ n - x ≤ Nat.log 2 m := by
    rw [← Int.log_natCast (R := ℚ)]
    exact_mod_cast Int.zpow_le_iff_le_log Nat.one_lt_two hpos
  rw [← div_le_iff₀ (by positivity), ← zpow_sub₀ two_ne_zero, hlead, ilog2, Nat.log2_eq_log_two]
  omega

/-- The overflow test of R103 in the number's own terms. -/
theorem overflow_iff {m : Nat} (hm : m ≠ 0) (x : Int) : 15 ≤ x + ilog2 m + 7 ↔ (256 : ℚ) ≤ m * 2 ^ x := by
  rw [show (256 : ℚ) = 2 ^ (8 : Int) by norm_num, two_zpow_le_scaled_iff hm]
  omega

/-- The result of `REASM` on the state's own ports is the truncation of the number they stand for (R107). -/
theorem reasm_truncates (s : State) :
    TruncatesTo ((s.inp.mant.toNat : ℚ) * 2 ^ s.inp.exp.toInt) s.inp.sgn
      (reassemble s.inp.mant (sextExp s.inp.exp) s.inp.sgn) :=
  reassemble_truncates _ _ _ (sextExp_ge _)

/-- Settles O32: the two tests are one (`overflow_iff`), and the result on either side is that of truncation. -/
theorem reasmOverflowsAt256 : Obligations.ReasmOverflowsAt256 := by
  intro s hmant
  obtain ⟨-, hinf, hfinite⟩ := reasm_truncates s
  have htest := overflow_iff (toNat_ne_zero hmant) s.inp.exp.toInt
  refine ⟨htest, fun hover => ?_, fun hlt => ⟨_, exec_reasm s, (hfinite hlt).1⟩⟩
  rw [exec_reasm, hinf (htest.1 hover), signedInf_eq_ite]

/-! ## Closed form (R106) -/

/-- The loops' quotient, six bits kept below the leading place, is the integer part of the scaled mantissa. -/
theorem floor_scaled_eq_div (m k : Nat) : ⌊(m : ℚ) * 2 ^ (6 - (k : Int))⌋ = ((m * 2 ^ 6 / 2 ^ k : Nat) : Int) := by
  have hquot : (m : ℚ) * 2 ^ (6 - (k : Int)) = ((m * 2 ^ 6 : Nat) : ℚ) / ((2 ^ k : Nat) : ℚ) := by
    rw [zpow_sub₀ two_ne_zero, zpow_natCast]
    push_cast
    rw [← mul_div_assoc]
  rw [hquot, Rat.floor_natCast_div_natCast, Int.natCast_ediv]

/-- The loops' quotient has a bit at position `j` or above exactly when the mantissa's leading bit lands there. -/
theorem two_pow_le_div_iff {m : Nat} (hm : m ≠ 0) (j k : Nat) :
    2 ^ j ≤ m * 2 ^ 6 / 2 ^ k ↔ (j : Int) ≤ 6 - k + ilog2 m := by
  rw [← two_zpow_le_scaled_iff hm, ← Nat.cast_le (α := Int), ← floor_scaled_eq_div, Int.le_floor]
  simp

section Rows

variable {m : Acc} {x : Int} {s : Bit} (hx : -128 ≤ x) (hm : m ≠ 0#32)
include hx hm

/-- The closed form with `p` the position of the leading bit (R106). -/
theorem reassemble_eq_ilog2 :
    reassemble m x s =
      if 8 ≤ x + ilog2 m.toNat then signedInf s
      else if x + ilog2 m.toNat ≤ -7 then
        compose s 0#4 (BitVec.ofNat 6 (m.toNat * 2 ^ 6 / 2 ^ (-6 - x).toNat))
      else compose s (BitVec.ofInt 4 (x + ilog2 m.toNat + 7))
        (BitVec.ofNat 6 (m.toNat * 2 ^ 6 / 2 ^ ilog2 m.toNat - 64)) := by
  obtain ⟨hlo, hhi⟩ := leading_bit m.toNat (toNat_ne_zero hm)
  exact reassemble_eq m x s _ hx hlo hhi

theorem reassemble_overflow (h : 8 ≤ x + ilog2 m.toNat) :
    expField (reassemble m x s) = 15#4 ∧ fracField (reassemble m x s) = 0#6 := by
  rw [reassemble_eq_ilog2 hx hm, if_pos h, signedInf_eq_compose]
  simp

theorem reassemble_normal (hlo : -6 ≤ x + ilog2 m.toNat) (hhi : x + ilog2 m.toNat ≤ 7) :
    ((expField (reassemble m x s)).toNat : Int) = x + ilog2 m.toNat + 7 ∧
    ((fracField (reassemble m x s)).toNat : Int) = ⌊(m.toNat : ℚ) * 2 ^ (6 - (ilog2 m.toNat : Int))⌋ - 64 := by
  have h64 := two_pow_le_div_iff (toNat_ne_zero hm) 6 (ilog2 m.toNat)
  have h128 := two_pow_le_div_iff (toNat_ne_zero hm) 7 (ilog2 m.toNat)
  rw [reassemble_eq_ilog2 hx hm, if_neg (by omega), if_neg (by omega), expField_compose, fracField_compose,
    BitVec.toNat_ofInt, BitVec.toNat_ofNat, floor_scaled_eq_div]
  constructor <;> omega

/-- Below the normal exponents the fraction field counts the whole units of 2⁻¹² in the magnitude; none is left from
`en = -13` down. -/
theorem reassemble_denormal (h : x + ilog2 m.toNat ≤ -7) :
    expField (reassemble m x s) = 0#4 ∧
    ((fracField (reassemble m x s)).toNat : Int) = ⌊(m.toNat : ℚ) * 2 ^ (x + 12)⌋ ∧
    (1 ≤ (fracField (reassemble m x s)).toNat ↔ -12 ≤ x + ilog2 m.toNat) := by
  have h1 := two_pow_le_div_iff (toNat_ne_zero hm) 0 (-6 - x).toNat
  have h64 := two_pow_le_div_iff (toNat_ne_zero hm) 6 (-6 - x).toNat
  rw [reassemble_eq_ilog2 hx hm, if_neg (by omega), if_pos h, expField_compose, fracField_compose,
    show x + 12 = 6 - ((-6 - x).toNat : Int) by omega, floor_scaled_eq_div, BitVec.toNat_ofNat]
  generalize m.toNat * 2 ^ 6 / 2 ^ (-6 - x).toNat = quotient at *
  refine ⟨rfl, ?_, ?_⟩ <;> omega

end Rows

/-- Settles O33, row by row. -/
theorem reasmMatchesClosedForm : Obligations.ReasmMatchesClosedForm := by
  intro s
  refine ⟨reassemble s.inp.mant s.inp.exp.toInt s.inp.sgn, exec_reasm s, signField_reassemble _ _ _,
    fun hzero => ?_, fun hmant => ?_⟩
  · rw [hzero, reassemble_zero, signedZero_eq_compose]
    simp
  · have hx : -128 ≤ s.inp.exp.toInt := sextExp_ge _
    refine ⟨reassemble_overflow hx hmant, reassemble_normal hx hmant, fun hlo hhi => ?_, fun hlow => ?_⟩
    · obtain ⟨hexp, hfrac, hpos⟩ := reassemble_denormal (s := s.inp.sgn) hx hmant hhi
      exact ⟨hexp, hfrac, hpos.2 hlo, Nat.le_of_lt_succ (BitVec.isLt _)⟩
    · obtain ⟨hexp, -, hpos⟩ := reassemble_denormal (s := s.inp.sgn) hx hmant (by omega)
      refine ⟨hexp, BitVec.eq_of_toNat_eq ?_⟩
      have hzero := mt hpos.1 (by omega)
      simpa using hzero

/-! ## Truncation toward zero (R107) -/

/-- Finite patterns of one magnitude differ at most in the sign (R54). -/
theorem fields_eq_of_abs_val_eq {u v : Enc} (hu : isFinite u = true) (hv : isFinite v = true)
    (h : |val u| = |val v|) : expField u = expField v ∧ fracField u = fracField v :=
  magnitude12_inj u v hu hv
    (le_antisymm ((abs_val_le_abs_val_iff u v).1 h.le) ((abs_val_le_abs_val_iff v u).1 h.ge))

/-- Truncation leaves a representable magnitude as it is. -/
theorem eq_of_truncatesTo_abs_val {v r : Enc} (hv : isFinite v = true)
    (h : TruncatesTo |val v| (signField v) r) : r = v := by
  obtain ⟨hsign, -, hfinite⟩ := h
  have hlt : |val v| < 256 := lt_of_le_of_lt (abs_val_le_of_finite hv) (by norm_num)
  obtain ⟨hr, hle, hgreatest⟩ := hfinite hlt
  obtain ⟨hexp, hfrac⟩ := fields_eq_of_abs_val_eq hr hv (le_antisymm hle (hgreatest v hv le_rfl))
  exact enc_ext hsign hexp hfrac

/-- Underflow: a magnitude below one unit truncates to a zero. -/
theorem isZero_of_truncatesTo {x : ℚ} {s : Bit} {r : Enc} (h : TruncatesTo x s r) (hx : x < 2 ^ (-12 : Int)) :
    isZero r = true := by
  obtain ⟨-, -, hfinite⟩ := h
  rw [show (2 : ℚ) ^ (-12 : Int) = 1 / 4096 by norm_num] at hx
  obtain ⟨-, hle, -⟩ := hfinite (by linarith)
  have hlt : (magnitude12 r : ℚ) < 1 := by
    rw [abs_val] at hle
    linarith
  rw [← magnitude12_eq_zero]
  exact Nat.lt_one_iff.1 (by exact_mod_cast hlt)

/-- Between the largest finite magnitude and overflow the result is the largest finite pattern. -/
theorem largest_of_truncatesTo {x : ℚ} {s : Bit} {r : Enc} (h : TruncatesTo x s r) (hlo : 254 ≤ x) (hhi : x < 256) :
    r &&& 0x3FF#11 = 0x3BF#11 := by
  obtain ⟨-, -, hfinite⟩ := h
  obtain ⟨hr, -, hgreatest⟩ := hfinite hhi
  have hmax : |val 0x3BF#11| = 254 := by
    rw [abs_val, show magnitude12 0x3BF#11 = 254 * 4096 by decide]
    norm_num
  have hval : |val r| = |val 0x3BF#11| :=
    le_antisymm (hmax ▸ abs_val_le_of_finite hr) (hgreatest _ (by decide) (hmax ▸ hlo))
  obtain ⟨hexp, hfrac⟩ := fields_eq_of_abs_val_eq hr (by decide) hval
  rw [and_0x3FF_eq_compose, hexp, hfrac]
  decide

/-- Settles O34: the loops truncate, and the two end rows follow from truncation. -/
theorem reasmTruncatesTowardZero : Obligations.ReasmTruncatesTowardZero := by
  intro s
  have htrunc := reasm_truncates s
  exact ⟨_, exec_reasm s, htrunc, isZero_of_truncatesTo htrunc, largest_of_truncatesTo htrunc⟩

/-! ## Inverse of ALIGN (R112) -/

/-- A mantissa and an exponent that stand for a finite value's magnitude reassemble to that value. -/
theorem reassemble_of_abs_val {v : Enc} {m : Acc} {x : Int} (hv : isFinite v = true) (hx : -128 ≤ x)
    (h : (m.toNat : ℚ) * 2 ^ x = |val v|) : reassemble m x (signField v) = v :=
  eq_of_truncatesTo_abs_val hv (h ▸ reassemble_truncates m x (signField v) hx)

/-- The port of `ALIGN` gives `REASM` the shared exponent unchanged (R94). -/
theorem sextExp_expPort_alignPair (a b : Enc) : sextExp (expPort (alignPair a b).e) = (alignPair a b).e :=
  expPort_alignPair a b

/-- Settles O35: the mantissas of `ALIGN` are exact, and truncation of an exact magnitude returns the value. -/
theorem reasmInvertsAlign : Obligations.ReasmInvertsAlign := by
  refine ⟨fun a b s ha hb => ?_, fun s => ?_⟩
  · obtain ⟨hval1, hval2⟩ := alignPair_val a b
    obtain ⟨hge, -⟩ := alignPair_spec a b
    refine ⟨_, _, _, _, transact_align a b s, rfl, rfl, rfl, ?_, ?_⟩
    · rw [resultOf_reasm, sextExp_expPort_alignPair, reassemble_of_abs_val ha (by omega) hval1]
    · rw [resultOf_reasm, sextExp_expPort_alignPair, reassemble_of_abs_val hb (by omega) hval2]
  · rw [resultOf_reasm, resultOf_reasm]
    decide

end Sys2Proof.Proofs
end

section
/-!
PROOF. The converters (spec/43_converters.md R120 to R137): the guards and the closed form of `N2F`, the writes of
`F2N`, its exact magnitude, and the round trip through a struct.
-/

namespace Sys2Proof.Proofs

open Sys2Proof.Machine Sys2Proof.Laws

/-! ## The guards of N2F (R121 to R124) -/

section Guards

variable (neg inf nan : Bit) (whole frac : Acc)

theorem n2fValue_of_absent : n2fValue 0#1 neg inf nan whole frac = Config.canonNan := rfl

theorem n2fValue_of_nan : n2fValue 1#1 neg inf 1#1 whole frac = Config.canonNan := rfl

theorem n2fValue_of_overflow (h : inf = 1#1 ∨ 256 ≤ whole.toNat) :
    n2fValue 1#1 neg inf 0#1 whole frac = signedInf neg := by
  have hguard : (inf == 1#1 || decide (Config.wholeOvf.toNat ≤ whole.toNat)) = true := by
    rw [Bool.or_eq_true, beq_iff_eq, decide_eq_true_eq]
    exact h
  simp [n2fValue, hguard]

theorem n2fValue_of_zero : n2fValue 1#1 neg 0#1 0#1 0#32 0#32 = signedZero neg := rfl

end Guards

/-- Just below the overflow: the leading bit is bit 39 of the struct's number and the fraction is all ones (R123). -/
theorem n2fValue_below_overflow : n2fValue 1#1 0#1 0#1 0#1 255#32 0xFFFFFFFF#32 = 0x3BF#11 := by
  rw [n2fValue_general _ _ _ (by decide) (by decide), n2fGeneral_eq _ _ _ 39 le_rfl (by decide) (by decide)]
  decide

/-- Settles O36, guard by guard. -/
theorem n2fGuardsInOrder : Obligations.N2fGuardsInOrder := by
  intro s
  rw [exec_n2f]
  refine ⟨fun hpresent => ?_, fun hpresent hnan => ?_, fun hpresent hnan hover => ?_,
    fun hpresent hnan hinf hwhole hfrac => ?_, fun hpresent hnan hinf hneg hwhole hfrac => ?_⟩
  · rw [hpresent, n2fValue_of_absent]
  · rw [hpresent, hnan, n2fValue_of_nan]
  · rw [hpresent, hnan, n2fValue_of_overflow _ _ _ _ hover, signedInf_eq_ite]
  · rw [hpresent, hnan, hinf, hwhole, hfrac, n2fValue_of_zero, signedZero_eq_ite]
  · rw [hpresent, hnan, hinf, hneg, hwhole, hfrac, n2fValue_below_overflow]

/-! ## The closed form of N2F (R128) -/

/-- `V` of R128: the struct's magnitude in units of 2⁻³². -/
def structNumber (whole frac : Acc) : Nat := whole.toNat * 2 ^ 32 + frac.toNat

section Rows

variable {neg : Bit} {whole frac : Acc} (hw : whole.toNat < 256) (hz : ¬ (whole = 0#32 ∧ frac = 0#32))
include hw hz

theorem structNumber_ne_zero : structNumber whole frac ≠ 0 := by
  obtain ⟨P, -, hlo, -⟩ := struct_number whole frac hw hz
  exact Nat.ne_of_gt (lt_of_lt_of_le (by positivity) hlo)

theorem ilog2_structNumber_le : ilog2 (structNumber whole frac) ≤ 39 := by
  obtain ⟨P, hP, hlo, hhi⟩ := struct_number whole frac hw hz
  exact ((Nat.log2_eq_iff (structNumber_ne_zero hw hz)).2 ⟨hlo, hhi⟩).trans_le hP

/-- The two rows of the closed form, from the position of the leading bit of `V` (R128). -/
theorem n2fGeneral_eq_ilog2 :
    n2fGeneral neg whole frac =
      if ilog2 (structNumber whole frac) ≤ 25 then compose neg 0#4 (BitVec.ofNat 6 (frac.toNat / 2 ^ 20))
      else compose neg (BitVec.ofNat 4 (ilog2 (structNumber whole frac) - 25))
        (BitVec.ofNat 6 (structNumber whole frac * 2 ^ 6 / 2 ^ ilog2 (structNumber whole frac) - 64)) := by
  obtain ⟨hlo, hhi⟩ := leading_bit _ (structNumber_ne_zero hw hz)
  exact n2fGeneral_eq neg whole frac _ (ilog2_structNumber_le hw hz) hlo hhi

theorem n2fGeneral_normal {P : Nat} (hP : ilog2 (structNumber whole frac) = P) (h : 26 ≤ P) :
    ((expField (n2fGeneral neg whole frac)).toNat : Int) = (P : Int) - 32 + 7 ∧
    ((fracField (n2fGeneral neg whole frac)).toNat : Int) =
      ⌊(structNumber whole frac : ℚ) * 2 ^ (6 - ((P : Int) - 32) - 32)⌋ - 64 := by
  have hle := ilog2_structNumber_le hw hz
  have h64 := two_pow_le_div_iff (structNumber_ne_zero hw hz) 6 P
  have h128 := two_pow_le_div_iff (structNumber_ne_zero hw hz) 7 P
  rw [n2fGeneral_eq_ilog2 hw hz, hP, if_neg (by omega), expField_compose, fracField_compose, BitVec.toNat_ofNat,
    BitVec.toNat_ofNat, show (6 : Int) - (P - 32) - 32 = 6 - P by ring, floor_scaled_eq_div]
  constructor <;> omega

theorem n2fGeneral_denormal (h : ilog2 (structNumber whole frac) ≤ 25) :
    expField (n2fGeneral neg whole frac) = 0#4 ∧
    fracField (n2fGeneral neg whole frac) = frac.extractLsb' 20 6 := by
  rw [n2fGeneral_eq_ilog2 hw hz, if_pos h, expField_compose, fracField_compose, BitVec.extractLsb',
    Nat.shiftRight_eq_div_pow]
  exact ⟨rfl, rfl⟩

end Rows

/-- Settles O37: the two rows, and truncation by `n2fGeneral_truncates`. -/
theorem n2fMatchesClosedForm : Obligations.N2fMatchesClosedForm := by
  intro s hpresent hnan hinf hw hz
  have htrunc := n2fGeneral_truncates s.inp.num_neg _ _ hw hz
  have hsign := htrunc.1
  have hle : ilog2 (s.inp.num_whole.toNat * 2 ^ 32 + s.inp.num_frac.toNat) ≤ 39 := ilog2_structNumber_le hw hz
  refine ⟨_, ?_, hsign, ⟨fun hlo _ => n2fGeneral_normal hw hz rfl (by omega),
    fun hlow => n2fGeneral_denormal hw hz (by unfold structNumber; omega), by omega⟩, htrunc⟩
  rw [exec_n2f, hpresent, hnan, hinf, n2fValue_general _ _ _ hw hz]

/-! ## The paths of F2N (R131 to R134) -/

section Paths

variable {v : Enc}

theorem f2nOut_of_absent (v : Enc) : f2nOut v 0#1 = f2nAbsent := rfl

theorem f2nOut_of_infinity (h : isInfinity v = true) : f2nOut v 1#1 = f2nInf v := by
  simp [f2nOut, h]

theorem f2nOut_of_nan (h : isNaN v = true) : f2nOut v 1#1 = f2nNan v := by
  obtain ⟨-, hinf, -⟩ | ⟨hnan, -⟩ | ⟨hnan, -⟩ := nan_or_inf_or_finite v
  · simp [f2nOut, h, hinf]
  · simp [h] at hnan
  · simp [h] at hnan

theorem f2nOut_of_finite (h : isFinite v = true) : f2nOut v 1#1 = f2nFinite v := by
  obtain ⟨-, -, hfin⟩ | ⟨-, -, hfin⟩ | ⟨hnan, hinf, -⟩ := nan_or_inf_or_finite v
  · simp [h] at hfin
  · simp [h] at hfin
  · simp [f2nOut, hnan, hinf]

end Paths

/-- Every successful path keeps the sign write of `f2nSign` (R132). -/
theorem f2nOut_writes_sign (v : Enc) :
    (f2nOut v 1#1).err = .driven 0#1 ∧ (f2nOut v 1#1).we_neg = .driven 1#1 ∧
      (f2nOut v 1#1).o_neg = .driven (signField v) := by
  obtain ⟨hnan, -, -⟩ | ⟨-, hinf, -⟩ | ⟨-, -, hfin⟩ := nan_or_inf_or_finite v
  · rw [f2nOut_of_nan hnan]; exact ⟨rfl, rfl, rfl⟩
  · rw [f2nOut_of_infinity hinf]; exact ⟨rfl, rfl, rfl⟩
  · rw [f2nOut_of_finite hfin]; exact ⟨rfl, rfl, rfl⟩

/-- Settles O38: the presence test comes first. -/
theorem f2nAbsentStructFails : Obligations.F2nAbsentStructFails := by
  intro s hpresent
  rw [exec_f2n, hpresent, f2nOut_of_absent]
  rfl

/-- Settles O39: the sign on every path, the flags on the two paths of a special. -/
theorem f2nWritesSignAndSpecialFlag : Obligations.F2nWritesSignAndSpecialFlag := by
  intro s hpresent
  rw [exec_f2n, hpresent]
  refine ⟨⟨_, rfl, f2nOut_writes_sign s.inp.a⟩, fun hinf => ?_, fun hnan => ?_⟩
  · rw [f2nOut_of_infinity hinf]; rfl
  · rw [f2nOut_of_nan hnan]; rfl

/-! ## The exact magnitude (R136) -/

/-- `X` of R136: the magnitude of a finite value in units of 2⁻³². -/
def units32 (v : Enc) : Nat := significand v * 2 ^ (unbiasedExp v + 26).toNat

theorem units32_dvd (v : Enc) : 2 ^ 20 ∣ units32 v :=
  Dvd.dvd.mul_left (Nat.pow_dvd_pow 2 (by have := unbiasedExp_range v; omega)) _

section Finite

variable {v : Enc} (hf : isFinite v = true)
include hf

theorem units32_le : units32 v ≤ 127 * 2 ^ 33 :=
  Nat.mul_le_mul (by have := significand_lt v; omega)
    (Nat.pow_le_pow_right (by omega) (by have := unbiasedExp_finite v hf; omega))

theorem splitNum_shiftToUnits : splitNum (shiftToUnits (extract v)) = units32 v := by
  obtain ⟨-, hnum⟩ := shiftToUnits_extract v hf
  exact hnum

theorem shiftToUnits_whole : (shiftToUnits (extract v)).w = BitVec.ofNat 32 (units32 v / 2 ^ 32) := by
  rw [← splitNum_shiftToUnits hf, ← splitNum_w, BitVec.ofNat_toNat, BitVec.setWidth_eq]

theorem shiftToUnits_frac : (shiftToUnits (extract v)).f = BitVec.ofNat 32 (units32 v % 2 ^ 32) := by
  rw [← splitNum_shiftToUnits hf, ← splitNum_f, BitVec.ofNat_toNat, BitVec.setWidth_eq]

theorem units32_val : ((units32 v / 2 ^ 32 : Nat) : ℚ) + ((units32 v % 2 ^ 32 : Nat) : ℚ) / 2 ^ 32 = |val v| := by
  rw [← splitNum_shiftToUnits hf, ← splitNum_w, ← splitNum_f, shiftToUnits_val v hf]

theorem floor_abs_val : ((units32 v / 2 ^ 32 : Nat) : Int) = ⌊|val v|⌋ := by
  rw [← units32_val hf, Int.floor_natCast_add, Int.floor_eq_zero_iff.2, add_zero]
  have hlt : ((units32 v % 2 ^ 32 : Nat) : ℚ) < 2 ^ 32 := by exact_mod_cast Nat.mod_lt _ (by positivity)
  exact ⟨by positivity, (div_lt_one (by positivity)).2 hlt⟩

end Finite

/-- Settles O40: the loops deliver `X`, and `X` is the magnitude. -/
theorem f2nDeliversExactMagnitude : Obligations.F2nDeliversExactMagnitude := by
  intro s hpresent hf
  have hle := units32_le hf
  have hdvd : 2 ^ 20 ∣ units32 s.inp.a % 2 ^ 32 :=
    (Nat.dvd_mod_iff (Nat.pow_dvd_pow 2 (by omega))).2 (units32_dvd s.inp.a)
  refine ⟨?_, show units32 s.inp.a < _ by omega, show units32 s.inp.a / _ ≤ _ by omega, hdvd, floor_abs_val hf,
    units32_val hf⟩
  rw [exec_f2n, hpresent, f2nOut_of_finite hf, f2nFinite, shiftToUnits_whole hf, shiftToUnits_frac hf]
  rfl

/-! ## The round trip through a struct (R137) -/

/-- Without flags, `N2F` truncates the struct's magnitude, a zero included (R124, R128). -/
theorem n2fValue_truncates (neg : Bit) {whole frac : Acc} (hw : whole.toNat < 256) :
    TruncatesTo ((whole.toNat : ℚ) + (frac.toNat : ℚ) / 2 ^ 32) neg (n2fValue 1#1 neg 0#1 0#1 whole frac) := by
  by_cases hz : whole = 0#32 ∧ frac = 0#32
  · obtain ⟨rfl, rfl⟩ := hz
    rw [n2fValue_of_zero, ← reassemble_zero 0]
    simpa using reassemble_truncates 0#32 0 neg (by omega)
  · rw [n2fValue_general _ _ _ hw hz]
    exact n2fGeneral_truncates neg whole frac hw hz

/-- `N2F` of what the finite path of `F2N` writes is the value itself: truncation keeps an exact magnitude. -/
theorem n2fValue_shiftToUnits {v : Enc} (hf : isFinite v = true) :
    n2fValue 1#1 (signField v) 0#1 0#1 (shiftToUnits (extract v)).w (shiftToUnits (extract v)).f = v := by
  have hw : (shiftToUnits (extract v)).w.toNat < 256 := by
    have hle := units32_le hf
    rw [shiftToUnits_whole hf, BitVec.toNat_ofNat]
    omega
  exact eq_of_truncatesTo_abs_val hf (shiftToUnits_val v hf ▸ n2fValue_truncates (signField v) hw)

/-- The ports after the host has committed a finite result of `F2N`: the struct holds the sign and the magnitude, and
both flags keep their values (R43, R135). -/
theorem commitStruct_f2nFinite (v : Enc) (s : State) :
    (commitStruct (delivered (present (.f2n v 1#1) s) (f2nFinite v))).inp =
      { s.inp with
        op := encode .f2n, a := v, num_present := 1#1, num_neg := signField v
        num_whole := (shiftToUnits (extract v)).w, num_frac := (shiftToUnits (extract v)).f } :=
  rfl

theorem transact_f2n_of_finite {v : Enc} (hf : isFinite v = true) (s : State) :
    transact (.f2n v 1#1) s = .next (delivered (present (.f2n v 1#1) s) (f2nFinite v)) := by
  rw [transact_eq, ← f2nOut_of_finite hf]
  rfl

theorem step_withFetchWord_n2f (s : State) :
    step (s.withFetchWord 8 0x8) = exec .n2f (s.withFetchWord 8 0x8) :=
  rfl

/-- Settles O42: the struct holds the exact magnitude, which `N2F` returns. -/
theorem structRoundTripReturnsValue : Obligations.StructRoundTripReturnsValue := by
  intro v s hf hinf hnan
  refine ⟨_, _, transact_f2n_of_finite hf s, (step_withFetchWord_n2f _).trans (exec_n2f _),
    congrArg Port.driven ?_⟩
  simp only [withFetchWord_num_present, withFetchWord_num_neg, withFetchWord_num_inf, withFetchWord_num_nan,
    withFetchWord_num_whole, withFetchWord_num_frac, commitStruct_f2nFinite, hinf, hnan]
  exact n2fValue_shiftToUnits hf

end Sys2Proof.Proofs
end

section
/-!
PROOF. `NEG` and `MUL` (spec/44_arithmetic.md R140 to R147): the sign flip, the guards of `MUL`, the product of the
aligned mantissas, its truncation, its symmetry and its widths.
-/

namespace Sys2Proof.Proofs

open Sys2Proof.Machine Sys2Proof.Laws

/-! ## NEG (R140) -/

@[simp] theorem negValue_negValue (v : Enc) : negValue (negValue v) = v := by
  rw [negValue, negValue, BitVec.xor_assoc, BitVec.xor_self, BitVec.xor_zero]

/-- Settles O43: the three fields of `negValue`, and `negValue` twice. -/
theorem negFlipsOnlyTheSign : Obligations.NegFlipsOnlyTheSign := by
  refine ⟨exec_neg, fun v s t w ht hw => ?_⟩
  rw [transact_neg] at ht
  cases ht
  cases hw
  obtain ⟨hsign, hexp, hfrac⟩ := (eq_flip_iff (negValue v) v).1 rfl
  exact ⟨hsign, hexp, hfrac, isNaN_negValue v, by rw [resultOf_neg, negValue_negValue]⟩

/-! ## Classes of an operand (R51) -/

theorem isFinite_of_isZero {v : Enc} (h : isZero v = true) : isFinite v = true := by
  rw [isFinite_iff, ((isZero_iff v).1 h).1]
  decide

theorem isNaN_of_isFinite {v : Enc} (h : isFinite v = true) : isNaN v = false :=
  ((isFinite_iff_not_special v).1 h).1

theorem isInfinity_of_isFinite {v : Enc} (h : isFinite v = true) : isInfinity v = false :=
  ((isFinite_iff_not_special v).1 h).2

theorem isNaN_of_isInfinity {v : Enc} (h : isInfinity v = true) : isNaN v = false := by
  simpa [h] using not_isNaN_and_isInfinity v

theorem isZero_of_isInfinity {v : Enc} (h : isInfinity v = true) : isZero v = false :=
  (not_denormalized_nor_zero_of_exp_special (expField_eq_15_of_special (.inr h))).2

theorem isFinite_flip (v : Enc) : isFinite (v ^^^ 0x400#11) = isFinite v := by simp [isFinite]

theorem isNaN_flip (v : Enc) : isNaN (v ^^^ 0x400#11) = isNaN v := isNaN_negValue v

theorem isInfinity_flip (v : Enc) : isInfinity (v ^^^ 0x400#11) = isInfinity v := by
  obtain ⟨-, hinf, -, -⟩ := predicates_flip v
  exact hinf

theorem isZero_flip (v : Enc) : isZero (v ^^^ 0x400#11) = isZero v := by
  obtain ⟨-, -, -, hzero⟩ := predicates_flip v
  exact hzero

theorem val_ne_zero {v : Enc} (h : isZero v = false) : val v ≠ 0 := by
  rw [← abs_ne_zero, abs_val]
  have hpos : magnitude12 v ≠ 0 := by rw [ne_eq, magnitude12_eq_zero, h]; decide
  positivity

/-! ## The guards of MUL (R142) -/

section Guards

variable {a b : Enc}

theorem mulValue_of_nan (h : isNaN a = true ∨ isNaN b = true) : mulValue a b = Config.canonNan := by
  rw [mulValue, if_pos (by simpa using h)]

theorem mulValue_of_infinity_zero
    (h : (isInfinity a = true ∧ isZero b = true) ∨ (isZero a = true ∧ isInfinity b = true)) :
    mulValue a b = Config.canonNan := by
  have hguard : (isInfinity a && isZero b || isZero a && isInfinity b) = true := by simpa using h
  simp [mulValue, hguard]

/-- Guard M3, reached when neither operand is a NaN or a zero. -/
theorem mulValue_of_infinity (hna : isNaN a = false) (hnb : isNaN b = false) (hza : isZero a = false)
    (hzb : isZero b = false) (h : isInfinity a = true ∨ isInfinity b = true) :
    mulValue a b = signedInf (signField a ^^^ signField b) := by
  simp [mulValue, hna, hnb, hza, hzb, h]

/-- Guard M4, reached when both operands are finite. -/
theorem mulValue_of_zero (ha : isFinite a = true) (hb : isFinite b = true) (h : isZero a = true ∨ isZero b = true) :
    mulValue a b = signedZero (signField a ^^^ signField b) := by
  simp [mulValue, isNaN_of_isFinite, isInfinity_of_isFinite, ha, hb, h]

theorem mulValue_general (ha : isFinite a = true) (hza : isZero a = false) (hb : isFinite b = true)
    (hzb : isZero b = false) : mulValue a b = mulGeneral a b := by
  simp [mulValue, isNaN_of_isFinite, isInfinity_of_isFinite, ha, hb, hza, hzb]

end Guards

/-- Settles O44, row by row: each row meets one guard and none before it. -/
theorem mulGuardTable : Obligations.MulGuardTable := by
  intro s
  simp only [exec_mul, ← signedInf_eq_ite, ← signedZero_eq_ite]
  refine ⟨fun h => ?_, fun h => ?_, fun ⟨ha, hb⟩ => ?_, fun ⟨ha, hb, hzb⟩ => ?_, fun ⟨ha, hza, hb⟩ => ?_,
    fun ⟨ha, hb⟩ => ?_, fun ⟨ha, hb, _⟩ => ?_, fun ⟨ha, _, hb⟩ => ?_, fun ⟨ha, hza, hb, hzb⟩ => ?_⟩
  · rw [mulValue_of_nan h]
  · rw [mulValue_of_infinity_zero h]
  · rw [mulValue_of_infinity (isNaN_of_isInfinity ha) (isNaN_of_isInfinity hb) (isZero_of_isInfinity ha)
      (isZero_of_isInfinity hb) (.inl ha)]
  · rw [mulValue_of_infinity (isNaN_of_isInfinity ha) (isNaN_of_isFinite hb) (isZero_of_isInfinity ha) hzb (.inl ha)]
  · rw [mulValue_of_infinity (isNaN_of_isFinite ha) (isNaN_of_isInfinity hb) hza (isZero_of_isInfinity hb) (.inr hb)]
  · rw [mulValue_of_zero (isFinite_of_isZero ha) (isFinite_of_isZero hb) (.inl ha)]
  · rw [mulValue_of_zero (isFinite_of_isZero ha) hb (.inl ha)]
  · rw [mulValue_of_zero ha (isFinite_of_isZero hb) (.inr hb)]
  · rw [mulValue_general ha hza hb hzb]

/-! ## The aligned product (R143, R147) -/

/-- The exponent port of a doubled exponent is the port's own sum (R143). -/
theorem expPort_add_self (e : Int) : expPort e + expPort e = expPort (2 * e) := by
  rw [expPort, ← BitVec.ofInt_add, ← two_mul, expPort]

/-- Twice the shared exponent of finite operands fits the port too (R147). -/
theorem expPort_alignPair_doubled {a b : Enc} (ha : isFinite a = true) (hb : isFinite b = true) :
    (expPort (alignPair a b).e + expPort (alignPair a b).e).toInt = 2 * (alignPair a b).e := by
  obtain ⟨hge, -⟩ := alignPair_spec a b
  obtain ⟨hle, -⟩ := alignPair_bounds a b ha hb
  rw [expPort_add_self]
  exact expPort_toInt _ (by omega) (by omega)

theorem alignedProduct_toNat {a b : Enc} (ha : isFinite a = true) (hb : isFinite b = true) :
    ((alignPair a b).m1 * (alignPair a b).m2).toNat = (alignPair a b).m1.toNat * (alignPair a b).m2.toNat := by
  obtain ⟨-, -, -, hprod⟩ := alignPair_bounds a b ha hb
  exact BitVec.toNat_mul_of_lt (by omega)

/-- Both mantissas are exact, so their product at twice the exponent is (R90, R143). -/
theorem alignedProduct_val (a b : Enc) :
    (((alignPair a b).m1.toNat * (alignPair a b).m2.toNat : Nat) : ℚ) * 2 ^ (2 * (alignPair a b).e) =
      |val a * val b| := by
  obtain ⟨hval1, hval2⟩ := alignPair_val a b
  rw [abs_mul, ← hval1, ← hval2, two_mul, zpow_add₀ two_ne_zero]
  push_cast
  ring

theorem mulGeneral_eq (a b : Enc) :
    mulGeneral a b = reassemble ((alignPair a b).m1 * (alignPair a b).m2) (2 * (alignPair a b).e)
      (signField a ^^^ signField b) := by
  simp only [mulGeneral, BitVec.ofNat_mul, BitVec.ofNat_toNat, BitVec.setWidth_eq]

/-- Settles O45: `REASM` reads the product and the doubled exponent from its ports unchanged. -/
theorem mulReassemblesAlignedProduct : Obligations.MulReassemblesAlignedProduct := by
  intro s ha hza hb hzb
  refine ⟨_, _, _, _, mulGeneral s.inp.a s.inp.b, exec_align s, rfl, rfl, rfl, ?_, ?_, ?_⟩
  · rw [resultOf_reasm, sextExp, expPort_alignPair_doubled ha hb, mulGeneral_eq]
  · rw [exec_mul, mulValue_general ha hza hb hzb]
  · rw [expPort_alignPair, alignedProduct_val]

theorem mulGeneral_truncates {a b : Enc} (ha : isFinite a = true) (hb : isFinite b = true) :
    TruncatesTo |val a * val b| (signField a ^^^ signField b) (mulGeneral a b) := by
  obtain ⟨hge, -⟩ := alignPair_spec a b
  rw [mulGeneral_eq, ← alignedProduct_val, ← alignedProduct_toNat ha hb]
  exact reassemble_truncates _ _ _ (by omega)

/-- Settles O46: truncation of the exact product. -/
theorem mulTruncatesExactProduct : Obligations.MulTruncatesExactProduct := by
  intro s ha hza hb hzb
  refine ⟨_, exec_mul s, ?_⟩
  rw [mulValue_general ha hza hb hzb]
  exact mulGeneral_truncates ha hb

/-- Settles O48, from the bounds of `ALIGN` on finite operands. -/
theorem mulWidthsNeverWrap : Obligations.MulWidthsNeverWrap := by
  intro s t ha _ hb _ ht
  cases ht
  obtain ⟨hge, -⟩ := alignPair_spec s.inp.a s.inp.b
  obtain ⟨hle, -, -, hprod⟩ := alignPair_bounds s.inp.a s.inp.b ha hb
  refine ⟨_, _, _, rfl, rfl, rfl, ?_⟩
  rw [expPort_alignPair_doubled ha hb, expPort_alignPair]
  exact ⟨hge, hle, rfl, by omega, by omega, hprod, alignedProduct_toNat ha hb⟩

/-! ## Symmetry and sign (R146) -/

theorem mulGeneral_comm (a b : Enc) : mulGeneral a b = mulGeneral b a := by
  obtain ⟨he, hm1, hm2⟩ := alignPair_swap a b
  rw [mulGeneral_eq, mulGeneral_eq, he, hm1, hm2, BitVec.mul_comm, BitVec.xor_comm]

theorem mulValue_comm (a b : Enc) : mulValue a b = mulValue b a := by
  simp only [mulValue, mulGeneral_comm a b, BitVec.xor_comm (signField a), Bool.or_comm (isNaN a),
    Bool.or_comm (isInfinity a), Bool.or_comm (isZero a), Bool.or_comm (isZero b && isInfinity a),
    Bool.and_comm (isInfinity a), Bool.and_comm (isZero a)]

/-- Past the two guards that answer NaN, every path of `MUL` puts the XOR of the signs at bit 10. -/
theorem signField_mulValue {a b : Enc} (hnan : (isNaN a || isNaN b) = false)
    (hinf : (isInfinity a && isZero b || isZero a && isInfinity b) = false) :
    signField (mulValue a b) = signField a ^^^ signField b := by
  simp only [mulValue, hnan, hinf, Bool.false_eq_true, if_false]
  split_ifs
  · rw [signedInf_eq_compose, signField_compose]
  · rw [signedZero_eq_compose, signField_compose]
  · exact signField_reassemble _ _ _

theorem signField_mulValue_of_finite {a b : Enc} (ha : isFinite a = true) (hb : isFinite b = true) :
    signField (mulValue a b) = signField a ^^^ signField b :=
  signField_mulValue (by simp [isNaN_of_isFinite, ha, hb]) (by simp [isInfinity_of_isFinite, ha, hb])

/-- A value and its negation differ in sign, and are an Infinity or a zero only together. -/
theorem signField_mulValue_flip {v : Enc} (h : isNaN v = false) :
    signField (mulValue v (v ^^^ 0x400#11)) = 1#1 := by
  have hnan : (isNaN v || isNaN (v ^^^ 0x400#11)) = false := by rw [isNaN_flip, h]; rfl
  have hinf : (isInfinity v && isZero (v ^^^ 0x400#11) || isZero v && isInfinity (v ^^^ 0x400#11)) = false := by
    rw [isInfinity_flip, isZero_flip]
    cases hi : isInfinity v with
    | false => simp
    | true => simp [isZero_of_isInfinity hi]
  rw [signField_mulValue hnan hinf, signField_flip, ← BitVec.xor_assoc, BitVec.xor_self, BitVec.zero_xor]

/-- Settles O47: symmetry guard by guard, and the sign of every result that is not a NaN. -/
theorem mulCommutesAndSignIsXor : Obligations.MulCommutesAndSignIsXor := by
  intro s
  refine ⟨fun a b => ?_, fun a b r ha _ hb _ hr => ?_, fun v hv => ⟨_, resultOf_mul s _ _, ?_, fun hz => ?_⟩⟩
  · rw [resultOf_mul, resultOf_mul, mulValue_comm]
  · rw [resultOf_mul] at hr
    rw [← Option.some.inj hr, signField_mulValue_of_finite ha hb]
  · exact signField_mulValue_flip hv
  · rw [isZero_eq _ hz, signField_mulValue_flip hv]
    rfl

end Sys2Proof.Proofs
end

section
/-!
PROOF. `ADD` (spec/44_arithmetic.md R150 to R160): its symmetry, its guards, the signed sum of the aligned mantissas
and its widths, the truncation of the exact sum, and the sums that are exact.
-/

namespace Sys2Proof.Proofs

open Sys2Proof.Machine Sys2Proof.Laws

/-! ## The signed sum (R152, R160) -/

/-- The sum of the mantissas of `ALIGN`, each with its operand's sign (R152). -/
def alignedSum (a b : Enc) : Int :=
  signedMantissa (signField a) (alignPair a b).m1 + signedMantissa (signField b) (alignPair a b).m2

theorem addGeneral_eq (a b : Enc) :
    addGeneral a b = reassemble (BitVec.ofNat 32 (alignedSum a b).natAbs) (alignPair a b).e
      (if alignedSum a b < 0 then 1#1 else 0#1) := by
  rw [← bit_eq_ite_of_iff (decide_eq_true_iff (p := alignedSum a b < 0))]
  rfl

theorem signedMantissa_eq_ite (s : Bit) (m : Acc) :
    signedMantissa s m = if s = 1#1 then -(m.toNat : Int) else m.toNat := by
  simp [signedMantissa]

theorem natAbs_signedMantissa (s : Bit) (m : Acc) : (signedMantissa s m).natAbs = m.toNat := by
  unfold signedMantissa
  split_ifs <;> simp

theorem val_eq_signed_abs (v : Enc) : val v = if signField v = 1#1 then -|val v| else |val v| := by
  rw [abs_val, val_eq]
  split_ifs <;> ring

/-- A mantissa that is exact for a magnitude is, with its operand's sign, exact for the value. -/
theorem signedMantissa_val {m : Acc} {E : Int} {v : Enc} (h : (m.toNat : ℚ) * 2 ^ E = |val v|) :
    (signedMantissa (signField v) m : ℚ) * 2 ^ E = val v := by
  rw [val_eq_signed_abs, ← h, signedMantissa_eq_ite]
  split_ifs
  · push_cast
    ring
  · rfl

theorem alignedSum_val (a b : Enc) : (alignedSum a b : ℚ) * 2 ^ (alignPair a b).e = val a + val b := by
  obtain ⟨hval1, hval2⟩ := alignPair_val a b
  rw [alignedSum, Int.cast_add, add_mul, signedMantissa_val hval1, signedMantissa_val hval2]

theorem abs_alignedSum_val (a b : Enc) :
    ((alignedSum a b).natAbs : ℚ) * 2 ^ (alignPair a b).e = |val a + val b| := by
  rw [← alignedSum_val, abs_mul, abs_of_pos (show (0 : ℚ) < 2 ^ (alignPair a b).e by positivity), Nat.cast_natAbs,
    Int.cast_abs]

theorem alignedSum_neg_iff (a b : Enc) : alignedSum a b < 0 ↔ val a + val b < 0 := by
  rw [← alignedSum_val, ← Int.cast_lt_zero (R := ℚ),
    ← mul_lt_mul_iff_left₀ (show (0 : ℚ) < 2 ^ (alignPair a b).e by positivity), zero_mul]

theorem alignedSum_natAbs_lt {a b : Enc} (ha : isFinite a = true) (hb : isFinite b = true) :
    (alignedSum a b).natAbs < 2 ^ 21 := by
  obtain ⟨-, hm1, hm2, -⟩ := alignPair_bounds a b ha hb
  have hadd := Int.natAbs_add_le (signedMantissa (signField a) (alignPair a b).m1)
    (signedMantissa (signField b) (alignPair a b).m2)
  rw [natAbs_signedMantissa, natAbs_signedMantissa] at hadd
  exact lt_of_le_of_lt hadd (by omega)

theorem alignedSum_toNat {a b : Enc} (ha : isFinite a = true) (hb : isFinite b = true) :
    (BitVec.ofNat 32 (alignedSum a b).natAbs).toNat = (alignedSum a b).natAbs := by
  have hlt := alignedSum_natAbs_lt ha hb
  rw [BitVec.toNat_ofNat]
  omega

/-- Settles O54, from the bounds of `ALIGN` on finite operands. -/
theorem addWidthsNeverWrap : Obligations.AddWidthsNeverWrap := by
  intro s t ha _ hb _ ht
  cases ht
  obtain ⟨hge, -⟩ := alignPair_spec s.inp.a s.inp.b
  obtain ⟨hle, hm1, hm2, -⟩ := alignPair_bounds s.inp.a s.inp.b ha hb
  have hsum := alignedSum_natAbs_lt ha hb
  refine ⟨_, _, _, rfl, rfl, rfl, by omega, by omega, ?_⟩
  rw [expPort_alignPair]
  exact ⟨hge, hle, show alignedSum _ _ < _ by omega, show _ < alignedSum _ _ by omega, alignedSum_toNat ha hb⟩

/-! ## Symmetry (R157) -/

theorem eq_flip_comm (a b : Enc) : a = b ^^^ 0x400#11 ↔ b = a ^^^ 0x400#11 := by
  constructor
  · rintro rfl
    exact (negValue_negValue b).symm
  · rintro rfl
    exact (negValue_negValue a).symm

theorem addGeneral_comm (a b : Enc) : addGeneral a b = addGeneral b a := by
  obtain ⟨he, hm1, hm2⟩ := alignPair_swap a b
  have hsum : alignedSum b a = alignedSum a b := by rw [alignedSum, alignedSum, hm1, hm2, add_comm]
  rw [addGeneral_eq, addGeneral_eq, he, hsum]

/-- Guards A1 to A7 are symmetric in their tests and answers; with both zeros gone at A7, A8 is too. -/
theorem addValue_comm (a b : Enc) : addValue a b = addValue b a := by
  have hflip : (a == b ^^^ 0x400#11) = (b == a ^^^ 0x400#11) := by
    rw [Bool.eq_iff_iff, beq_iff_eq, beq_iff_eq, eq_flip_comm]
  simp only [addValue, addGeneral_comm a b, hflip, BitVec.and_comm (signField a), Bool.or_comm (isNaN a),
    Bool.and_comm (isInfinity a), Bool.and_comm (isZero a), Bool.or_comm (a == _), bne_comm (a := signField a)]
  cases hza : isZero a <;> cases hzb : isZero b <;> simp

/-- Settles O53, by the symmetry of `addValue`. -/
theorem addCommutesBitForBit : Obligations.AddCommutesBitForBit :=
  fun a b s => ⟨_, resultOf_add s a b, by rw [resultOf_add, addValue_comm]⟩

/-! ## The guards of ADD (R151) -/

section Guards

variable {a b : Enc}

theorem addValue_of_opposite_infinities (ha : isInfinity a = true) (hb : isInfinity b = true)
    (h : signField a ≠ signField b) : addValue a b = Config.canonNan := by
  simp [addValue, ha, hb, h]

theorem addValue_of_nan (h : isNaN a = true ∨ isNaN b = true) : addValue a b = Config.canonNan := by
  have hguard : (isNaN a || isNaN b) = true := by simpa using h
  simp [addValue, hguard]

theorem addValue_of_same_infinity (ha : isInfinity a = true) : addValue a a = a := by
  rcases (isInfinity_iff_pattern a).1 ha with rfl | rfl <;> rfl

/-- Guard A4 on finite operands. -/
theorem addValue_of_flip (hb : isFinite b = true) (h : a = b ^^^ 0x400#11) : addValue a b = 0x000#11 := by
  have ha : isFinite a = true := by rw [h, isFinite_flip, hb]
  have hguard : (a == b ^^^ 0x400#11) = true := beq_iff_eq.2 h
  simp [addValue, isNaN_of_isFinite, isInfinity_of_isFinite, ha, hb, hguard, Config.posZero]

/-- Guards A5 and A6: an Infinity and a finite value are not each other's negation. -/
theorem addValue_of_infinity_finite (ha : isInfinity a = true) (hb : isFinite b = true) : addValue a b = a := by
  have hflip : a ≠ b ^^^ 0x400#11 := by
    rintro rfl
    rw [isInfinity_flip, isInfinity_of_isFinite hb] at ha
    cases ha
  have hpos : b ≠ 0x3C0#11 := by rintro rfl; cases hb
  have hnan := isNaN_of_isInfinity ha
  rcases (isInfinity_iff_pattern a).1 ha with rfl | rfl <;>
    simp [addValue, isNaN_of_isFinite, isInfinity_of_isFinite, hb, hflip, hnan, hpos, Config.posInf, Config.negInf]

theorem addValue_of_one_infinity {p : Enc} (hp : isInfinity p = true)
    (h : (a = p ∧ isFinite b = true) ∨ (isFinite a = true ∧ b = p)) : addValue a b = p := by
  rcases h with ⟨rfl, hb⟩ | ⟨ha, rfl⟩
  · exact addValue_of_infinity_finite hp hb
  · rw [addValue_comm]
    exact addValue_of_infinity_finite hp ha

/-- Past guard A4 finite operands meet A7, A8 or the general path. -/
theorem addValue_of_finite (ha : isFinite a = true) (hb : isFinite b = true) (hflip : a ≠ b ^^^ 0x400#11) :
    addValue a b =
      if isZero a && isZero b then signedZero (signField a &&& signField b)
      else if isZero a then b else if isZero b then a else addGeneral a b := by
  have hia := isInfinity_of_isFinite ha
  have hib := isInfinity_of_isFinite hb
  simp only [isInfinity, Bool.or_eq_false_iff] at hia hib
  simp [addValue, isNaN_of_isFinite, isInfinity_of_isFinite, ha, hb, hflip, hia, hib]

theorem addValue_of_zero_left (hza : isZero a = true) (hb : isFinite b = true) (hzb : isZero b = false) :
    addValue a b = b := by
  have hflip : a ≠ b ^^^ 0x400#11 := by
    rintro rfl
    rw [isZero_flip, hzb] at hza
    cases hza
  simp [addValue_of_finite (isFinite_of_isZero hza) hb hflip, hza, hzb]

theorem addValue_of_zero_right (ha : isFinite a = true) (hza : isZero a = false) (hzb : isZero b = true) :
    addValue a b = a := by
  rw [addValue_comm, addValue_of_zero_left hzb ha hza]

theorem addValue_general (ha : isFinite a = true) (hza : isZero a = false) (hb : isFinite b = true)
    (hzb : isZero b = false) (hflip : a ≠ b ^^^ 0x400#11) : addValue a b = addGeneral a b := by
  simp [addValue_of_finite ha hb hflip, hza, hzb]

end Guards

/-- Settles O49, row by row: each row meets one guard and none before it. -/
theorem addGuardTable : Obligations.AddGuardTable := by
  intro s
  simp only [exec_add]
  refine ⟨?_, fun h => ?_, fun ⟨ha, hb⟩ => ?_, fun ⟨ha, hb⟩ => ?_, fun ⟨_, hb, h⟩ => ?_, fun h => ?_,
    fun h => ?_, fun ⟨ha, hb⟩ => ?_, fun ⟨ha, hb⟩ => ?_, fun ⟨hza, hb, hzb⟩ => ?_, fun ⟨ha, hza, hzb⟩ => ?_,
    fun ⟨ha, hza, hb, hzb, hflip⟩ => ?_⟩
  · rintro (⟨ha, hb⟩ | ⟨ha, hb⟩) <;> rw [ha, hb, addValue_of_opposite_infinities rfl rfl (by decide)]
  · rw [addValue_of_nan h]
  · rw [ha, hb, addValue_of_same_infinity rfl]
  · rw [ha, hb, addValue_of_same_infinity rfl]
  · rw [addValue_of_flip hb h]
  · rw [addValue_of_one_infinity rfl h]
  · rw [addValue_of_one_infinity rfl h]
  · rw [ha, hb]
    rfl
  · rw [ha, hb]
    rfl
  · rw [addValue_of_zero_left hza hb hzb]
  · rw [addValue_of_zero_right ha hza hzb]
  · rw [addValue_general ha hza hb hzb hflip]

/-! ## The general path (R152, R153) -/

/-- Settles O50: `REASM` reads the sum and the exponent from its ports unchanged. -/
theorem addReassemblesSignedSum : Obligations.AddReassemblesSignedSum := by
  intro s ha hza hb hzb hflip
  refine ⟨_, _, _, _, addGeneral s.inp.a s.inp.b, exec_align s, rfl, rfl, rfl, ?_⟩
  simp only [← signedMantissa_eq_ite, expPort_alignPair]
  refine ⟨?_, ?_, alignedSum_val _ _⟩
  · rw [resultOf_reasm, sextExp_expPort_alignPair, addGeneral_eq]
    rfl
  · rw [exec_add, addValue_general ha hza hb hzb hflip]

theorem addGeneral_truncates {a b : Enc} (ha : isFinite a = true) (hb : isFinite b = true) :
    TruncatesTo |val a + val b| (if val a + val b < 0 then 1#1 else 0#1) (addGeneral a b) := by
  obtain ⟨hge, -⟩ := alignPair_spec a b
  have htrunc := reassemble_truncates (BitVec.ofNat 32 (alignedSum a b).natAbs) (alignPair a b).e
    (if alignedSum a b < 0 then 1#1 else 0#1) (by omega)
  rwa [alignedSum_toNat ha hb, abs_alignedSum_val, ← addGeneral_eq,
    if_congr (alignedSum_neg_iff a b) rfl rfl] at htrunc

/-- Settles O51: truncation of the exact sum. -/
theorem addTruncatesExactSum : Obligations.AddTruncatesExactSum := by
  intro s ha hza hb hzb hflip
  refine ⟨_, exec_add s, ?_⟩
  rw [addValue_general ha hza hb hzb hflip]
  exact addGeneral_truncates ha hb

/-! ## Sums near zero (R154) -/

theorem val_add_on_grid (a b : Enc) : ∃ n : Int, val a + val b = n * 2 ^ (-12 : Int) := by
  obtain ⟨m, hm⟩ := val_on_grid a
  obtain ⟨n, hn⟩ := val_on_grid b
  exact ⟨m + n, by rw [hm, hn, Int.cast_add, add_mul]⟩

/-- Only the negation cancels a non-zero value: it is the one encoding of the negative value (R54). -/
theorem val_add_ne_zero {a b : Enc} (ha : isFinite a = true) (hza : isZero a = false) (hb : isFinite b = true)
    (hflip : a ≠ b ^^^ 0x400#11) : val a + val b ≠ 0 := by
  intro hsum
  have hval : val a = val (b ^^^ 0x400#11) := by rw [val_flip]; exact eq_neg_of_add_eq_zero_left hsum
  exact hflip (eq_of_val_eq ha (by rw [isFinite_flip, hb]) (val_ne_zero hza) hval)

/-- A non-zero number on the grid of 2⁻¹² is at least one unit. -/
theorem unit_le_abs_of_grid {x : ℚ} {n : Int} (h : x = n * 2 ^ (-12 : Int)) (hx : x ≠ 0) :
    2 ^ (-12 : Int) ≤ |x| := by
  have hn : n ≠ 0 := by rintro rfl; simp [h] at hx
  rw [h, abs_mul, abs_of_pos (show (0 : ℚ) < 2 ^ (-12 : Int) by positivity)]
  exact le_mul_of_one_le_left (by positivity) (by exact_mod_cast Int.one_le_abs hn)

/-- Truncation of one unit or more is no underflow: `0x001` would be a greater magnitude not above it. -/
theorem not_isZero_of_truncatesTo {x : ℚ} {s : Bit} {r : Enc} (h : TruncatesTo x s r) (hx : 2 ^ (-12 : Int) ≤ x) :
    isZero r = false := by
  obtain ⟨-, hinf, hfinite⟩ := h
  rcases le_or_gt 256 x with hover | hlt
  · rw [hinf hover, signedInf_eq_compose]
    simp [isZero]
  · obtain ⟨-, -, hgreatest⟩ := hfinite hlt
    have hone : |val 0x001#11| = 2 ^ (-12 : Int) := by
      rw [abs_val, show magnitude12 0x001#11 = 1 by decide]
      norm_num
    have hle := hgreatest 0x001#11 (by decide) (hone ▸ hx)
    rw [abs_val_le_abs_val_iff, show magnitude12 0x001#11 = 1 by decide] at hle
    rw [← Bool.not_eq_true, ← magnitude12_eq_zero]
    omega

theorem abs_val_denormal (s : Bit) {n : Nat} (hn : n < 64) :
    |val (compose s 0#4 (BitVec.ofNat 6 n))| = n * 2 ^ (-12 : Int) := by
  rw [abs_val, magnitude12_of_exp_zero (expField_compose _ _ _), fracField_compose, BitVec.toNat_ofNat,
    Nat.mod_eq_of_lt hn, div_eq_mul_inv]
  norm_num

/-- Fewer than 64 whole units of 2⁻¹² are a denormal, which truncation keeps. -/
theorem eq_denormal_of_truncatesTo {n : Nat} {s : Bit} {r : Enc} (hn : n < 64)
    (h : TruncatesTo (n * 2 ^ (-12 : Int)) s r) : r = compose s 0#4 (BitVec.ofNat 6 n) := by
  refine eq_of_truncatesTo_abs_val (isFinite_compose _ _ _ (by decide)) ?_
  rw [abs_val_denormal s hn, signField_compose]
  exact h

theorem val_eq_of_sign_of_abs {x : ℚ} {r : Enc} (hsign : signField r = if x < 0 then 1#1 else 0#1)
    (h : |val r| = |x|) : val r = x := by
  rw [val_eq_signed_abs, hsign, h]
  by_cases hx : x < 0
  · simp [hx, abs_of_neg hx]
  · simp [hx, abs_of_nonneg (not_lt.1 hx)]

/-- A number on the grid below 2⁻⁶ in magnitude truncates, with its sign, to itself as a denormal. -/
theorem exact_of_truncatesTo_grid {x : ℚ} {n : Int} {r : Enc} (hgrid : x = n * 2 ^ (-12 : Int))
    (hx : |x| < 2 ^ (-6 : Int)) (h : TruncatesTo |x| (if x < 0 then 1#1 else 0#1) r) :
    isDenormalized r = true ∧ val r = x := by
  have habs : |x| = n.natAbs * 2 ^ (-12 : Int) := by
    rw [hgrid, abs_mul, abs_of_pos (show (0 : ℚ) < 2 ^ (-12 : Int) by positivity), Nat.cast_natAbs, Int.cast_abs]
  have hn : n.natAbs < 64 := by
    rw [habs, show (2 : ℚ) ^ (-6 : Int) = 64 * 2 ^ (-12 : Int) by norm_num] at hx
    exact_mod_cast lt_of_mul_lt_mul_right hx (by positivity)
  have hsign := h.1
  rw [habs] at h
  have hr := eq_denormal_of_truncatesTo hn h
  refine ⟨?_, val_eq_of_sign_of_abs hsign ?_⟩
  · rw [hr, isDenormalized_iff, expField_compose]
  · rw [hr, abs_val_denormal _ hn, habs]

/-- Settles O52: the exact sum is a non-zero number on the grid of 2⁻¹². -/
theorem addGeneralPathNeverZero : Obligations.AddGeneralPathNeverZero := by
  intro s ha hza hb hzb hflip
  obtain ⟨n, hgrid⟩ := val_add_on_grid s.inp.a s.inp.b
  have hunit := unit_le_abs_of_grid hgrid (val_add_ne_zero ha hza hb hflip)
  have htrunc := addGeneral_truncates ha hb
  refine ⟨hunit, _, exec_add s, ?_⟩
  rw [addValue_general ha hza hb hzb hflip]
  exact ⟨not_isZero_of_truncatesTo htrunc hunit, fun hsmall => exact_of_truncatesTo_grid hgrid hsmall htrunc⟩

end Sys2Proof.Proofs
end

section
/-!
PROOF. `SUB` (spec/44_arithmetic.md R161, R162) as `ADD` of the negated operand, its corner cases, and the source's
testable properties (R163).
-/

namespace Sys2Proof.Proofs

open Sys2Proof.Machine Sys2Proof.Laws

/-! ## SUB (R161, R162) -/

/-- Settles O55: `SUB` is `ADD` of the negated operand by definition. -/
theorem subIsAddOfNegation : Obligations.SubIsAddOfNegation :=
  fun s => ⟨_, negValue s.inp.b, exec_sub s, resultOf_neg s _, rfl, resultOf_add s _ _⟩

/-- `x - x` meets guard A4 (R162). -/
theorem subValue_self {x : Enc} (h : isFinite x = true) : subValue x x = 0x000#11 := by
  rw [subValue, addValue_comm]
  exact addValue_of_flip h rfl

theorem subValue_same_infinity {x : Enc} (h : isInfinity x = true) : subValue x x = Config.canonNan := by
  obtain ⟨hsign, -⟩ := (eq_flip_iff (negValue x) x).1 rfl
  exact addValue_of_opposite_infinities h ((isInfinity_flip x).trans h) hsign.symm

theorem subValue_of_nan {a b : Enc} (h : isNaN a = true ∨ isNaN b = true) : subValue a b = Config.canonNan :=
  addValue_of_nan (by rwa [isNaN_negValue])

/-- `0 - x` meets guard A8 (R162). -/
theorem subValue_zero_left {x : Enc} (h : isFinite x = true) (hz : isZero x = false) :
    subValue 0x000#11 x = x ^^^ 0x400#11 :=
  addValue_of_zero_left rfl ((isFinite_flip x).trans h) ((isZero_flip x).trans hz)

/-- The three printed differences of R162, by the loops of the general path. -/
theorem subValue_examples :
    subValue 0x140#11 0x1E0#11 = 0x5D0#11 ∧ subValue 0x001#11 0x002#11 = 0x401#11 ∧
      subValue 0x7BF#11 0x3BF#11 = 0x7C0#11 := by
  decide

/-- Settles O56: each case meets one guard of `ADD`, and the three printed examples are on its general path. -/
theorem subCornerCases : Obligations.SubCornerCases := by
  intro s
  simp only [resultOf_sub]
  obtain ⟨hone, htwo, hthree⟩ := subValue_examples
  refine ⟨fun x hx => by rw [subValue_self hx], by rw [subValue_same_infinity rfl],
    by rw [subValue_same_infinity rfl], rfl, rfl, rfl, fun x n hn => ⟨?_, ?_⟩, rfl, rfl, rfl, rfl,
    fun x hx hz => by rw [subValue_zero_left hx hz], by rw [hone], by rw [htwo], by rw [hthree],
    0x000#11, 0x400#11, by decide⟩
  · rw [subValue_of_nan (.inr hn)]
  · rw [subValue_of_nan (.inl hn)]

/-! ## The source's properties (R163) -/

/-- Adding +0 keeps every finite value but -0: guard A8, and A7 for +0 itself. -/
theorem addValue_posZero {v : Enc} (hf : isFinite v = true) (hv : v ≠ 0x400#11) : addValue v 0x000#11 = v := by
  cases hz : isZero v with
  | false => exact addValue_of_zero_right hf hz rfl
  | true =>
    have hpattern := isZero_eq v hz
    rcases bit_cases (signField v) with hs | hs
    · rw [hpattern, hs]
      rfl
    · rw [hs] at hpattern
      exact absurd hpattern hv

theorem mulValue_flip_negative_or_nan (v : Enc) :
    isNegative (mulValue v (negValue v)) = true ∨ isNaN (mulValue v (negValue v)) = true := by
  cases hn : isNaN v with
  | false => exact .inl ((isNegative_iff _).2 (signField_mulValue_flip hn))
  | true => exact .inr (by rw [mulValue_of_nan (.inl hn), isNaN_canonNan])

/-- Settles O57, each property from the lemma on its operation: involution, the sign of `MUL`, the guards. -/
theorem sourcePropertiesHold : Obligations.SourcePropertiesHold := by
  intro s
  simp only [resultOf_neg, resultOf_mul, resultOf_add, Option.some.injEq]
  refine ⟨?_, fun a b ha _ hb _ => ⟨_, rfl, signField_mulValue_of_finite ha hb⟩, ?_,
    fun v hf hv => addValue_posZero hf hv, rfl, ?_,
    fun n x hn => ⟨mulValue_of_nan (.inl hn), mulValue_of_nan (.inr hn), addValue_of_nan (.inl hn),
      addValue_of_nan (.inr hn)⟩,
    addValue_of_opposite_infinities rfl rfl (by decide),
    mulValue_of_infinity_zero (.inl ⟨rfl, rfl⟩), rfl⟩
  · rintro v n rfl
    exact negValue_negValue v
  · rintro v n rfl
    exact ⟨_, rfl, (mulValue_flip_negative_or_nan v).imp_right .inr⟩
  · rintro v n hf rfl
    rw [addValue_comm]
    exact addValue_of_flip hf rfl

end Sys2Proof.Proofs
end

section
/-!
PROOF. The operation select and the step (spec/30_encoding.md R55 to R58; spec/10_state.md R28, R33; spec/20_memory.md
R43, R47): decoding and encoding, what a step completes and refuses, the ports it drives, and the invariant it keeps.
-/

namespace Sys2Proof.Proofs

open Sys2Proof.Machine Sys2Proof.Laws

/-! ## Decoding and encoding (R55, R57) -/

theorem decodeWord_encode (i : Instr) : decodeWord (encode i).toNat = .ok i := by
  rw [decodeWord_ok (encode i).isLt, BitVec.ofNat_toNat, BitVec.setWidth_eq, decodeOp_encode]

theorem decodeBytes_encode (i : Instr) : decodeBytes [(encode i).setWidth 8] = .ok i := by
  rw [decodeBytes, BitVec.toNat_setWidth_of_le (by omega), decodeWord_encode]

theorem decodeTableWord_encode (i : Instr) : decodeTableWord 8 (encode i).toNat = some i := by
  have hsmall : (encode i).toNat % 2 ^ 8 = (encode i).toNat :=
    Nat.mod_eq_of_lt ((encode i).isLt.trans (by decide))
  rw [decodeTableWord, hsmall, decodeWord_encode]

/-- A number that decodes has no bit above bit 3, and those four bits are the code (R55). -/
theorem eq_encode_of_decodeWord {w : Nat} {i : Instr} (h : decodeWord w = .ok i) : w = (encode i).toNat := by
  rcases Nat.lt_or_ge w 16 with hw | hw
  · rw [decodeWord_ok hw] at h
    cases h
    rw [encode_decodeOp, BitVec.toNat_ofNat, Nat.mod_eq_of_lt hw]
  · rw [decodeWord_reject hw] at h
    cases h

/-- Settles O4: the port's table is read both ways, and each wider form holds the code in its low four bits. -/
theorem decodeAndEncodeAgree : Obligations.DecodeAndEncodeAgree :=
  ⟨fun i => ⟨decodeOp_encode i, decodeWord_encode i, decodeBytes_encode i, decodeTableWord_encode i⟩,
    encode_decodeOp, fun _ _ => eq_encode_of_decodeWord⟩

theorem decodeTableWord_eq_some {n w : Nat} {i : Instr} (h : decodeTableWord n w = some i) :
    decodeWord (w % 2 ^ n) = .ok i := by
  rw [decodeTableWord] at h
  split at h
  · next hword => rw [hword, Option.some.inj h]
  · cases h

/-- A table word with a bit above bit 3 is no operation code (R55). -/
theorem decodeTableWord_reject {n w : Nat} (h : 16 ≤ w % 2 ^ n) : decodeTableWord n w = none := by
  rw [decodeTableWord, decodeWord_reject h]

/-- Settles O3: the codes of the table are those of `encode`. -/
theorem opCodesDecodeAsTabled : Obligations.OpCodesDecodeAsTabled :=
  ⟨decodeOp_encode .classify, decodeOp_encode .unpack, decodeOp_encode .align, decodeOp_encode .reasm,
    decodeOp_encode .neg, decodeOp_encode .add, decodeOp_encode .sub, decodeOp_encode .mul,
    decodeOp_encode .n2f, decodeOp_encode .f2n, decodeOp_encode .reservedA, decodeOp_encode .reservedB,
    decodeOp_encode .reservedC, decodeOp_encode .reservedD, decodeOp_encode .reservedE, decodeOp_encode .reservedF,
    decodeTableWord_reject (by decide), decodeTableWord_reject (by decide)⟩

/-! ## Reset (R185) -/

/-- Settles O1, from the two fields of the state after reset. -/
theorem resetPresentsZerosAndDrivesNothing : Obligations.ResetPresentsZerosAndDrivesNothing :=
  ⟨reset_inp, reset_out⟩

/-- Settles O12: with no port driven there is nothing to be incoherent. -/
theorem resetOutputsCoherent : Obligations.ResetOutputsCoherent :=
  .inl reset_out

/-! ## What a step answers (R43, R56 to R58) -/

theorem step_eq_exec {i : Instr} {s : State} (h : s.inp.op = encode i) : step s = exec i s := by
  rw [step, h, decodeOp_encode]

theorem exec_of_outputsOf {i : Instr} {s : State} {o : OutPorts} (h : outputsOf i s.inp = some o) :
    exec i s = complete s o := by
  rw [exec_eq, h]

theorem exec_refuses {i : Instr} (s : State) (h : i.wf = false) : exec i s = refuseReserved (encode i) := by
  have hnone : outputsOf i s.inp = none := by simpa [h] using outputsOf_isSome i s.inp
  rw [exec_eq, hnone]

/-- The code of an operation is low and the code presented, so the four wires of `op` carry it whole (R47). -/
theorem ofNat_of_decodeTableWord {w : Nat} {i : Instr} (h : decodeTableWord 8 w = some i) :
    BitVec.ofNat 4 (w % 2 ^ 8) = encode i := by
  rw [eq_encode_of_decodeWord (decodeTableWord_eq_some h), BitVec.ofNat_toNat, BitVec.setWidth_eq]

/-- Settles O2: `step` decodes the code on `op`, and a presented table word puts its instruction's code there. -/
theorem stepRunsTheOperationOnOp : Obligations.StepRunsTheOperationOnOp := by
  refine ⟨fun i s => step_eq_exec, fun s w i hword => ?_⟩
  have hop := ofNat_of_decodeTableWord hword
  exact ⟨withFetchWord_out s 8 w, by rw [← hop]; rfl, step_eq_exec hop⟩

theorem step_completes_iff (s : State) : Completes (step s) ↔ s.selectsOperation = true := by
  constructor
  · rintro ⟨t, ht⟩
    obtain ⟨-, -, hwf, -⟩ := step_next ht
    exact hwf
  · exact exec_completes _ s

theorem selectsOperation_iff (s : State) : s.selectsOperation = true ↔ s.inp.op.toNat < 10 := by
  rw [State.selectsOperation, decodeOp_wf, decide_eq_true_iff]

/-- Settles O7: the codes below 10 are those of the operations, which complete, and every other code is refused. -/
theorem stepCompletesExactlyBelowReserved : Obligations.StepCompletesExactlyBelowReserved := by
  refine fun s => ⟨fun hlow => ?_, fun hhigh => ?_, (step_completes_iff s).symm⟩
  · obtain ⟨t, ht⟩ := (step_completes_iff s).2 ((selectsOperation_iff s).2 hlow)
    obtain ⟨o, -, -, -, hout⟩ := step_next ht
    exact ⟨t, ht, by rw [hout]⟩
  · have hwf : (decodeOp s.inp.op).wf = false := by
      rw [decodeOp_wf, decide_eq_false_iff_not]
      omega
    rw [step, exec_refuses s hwf, encode_decodeOp, refuseReserved]

/-- Settles O10: the inputs stay, so the second step computes the same outputs. -/
theorem stepKeepsInputsAndIsIdempotent : Obligations.StepKeepsInputsAndIsIdempotent := by
  intro s t h
  obtain ⟨o, ho, -, hinp, hout⟩ := step_next h
  refine ⟨hinp, ?_⟩
  rw [← hinp] at ho
  rw [step, exec_of_outputsOf ho, complete_next, ← hout]

/-! ## The ports an operation drives (R28, R57) -/

/-- `drivesOnly` leaves `op_illegal` out: every completed transaction drives that port. -/
theorem drivesOnly_op_illegal (i : Instr) (o : OutPorts) (p : Port 1) :
    drivesOnly i { o with op_illegal := p } = drivesOnly i o := rfl

theorem drivesOnly_f2nOut (v : Enc) (present : Bit) : drivesOnly .f2n (f2nOut v present) = true := by
  unfold f2nOut; split_ifs <;> rfl

theorem drivesOnly_outputsOf {i : Instr} {p : InPorts} {o : OutPorts} (h : outputsOf i p = some o) :
    drivesOnly i o = true := by
  cases i with
  | classify | unpack | align | reasm | neg | add | sub | mul | n2f =>
    obtain rfl := Option.some.inj h
    rfl
  | f2n =>
    obtain rfl := Option.some.inj h
    exact drivesOnly_f2nOut _ _
  | reservedA | reservedB | reservedC | reservedD | reservedE | reservedF => cases h

/-- Settles O8, operation by operation. -/
theorem operationsDriveOnlyTheirPorts : Obligations.OperationsDriveOnlyTheirPorts := by
  intro i s t h
  obtain ⟨o, ho, -, -, hout⟩ := exec_next h
  rw [hout, drivesOnly_op_illegal]
  exact ⟨drivesOnly_outputsOf ho, rfl⟩

/-- An operation completes, keeps the inputs and drives its own ports. -/
theorem exec_completes_driving {i : Instr} (s : State) (h : i.wf = true) :
    ∃ u, exec i s = .next u ∧ u.inp = s.inp ∧ u.out.op_illegal = .driven 0#1 ∧ drivesOnly i u.out = true := by
  obtain ⟨u, hu⟩ := exec_completes i s h
  obtain ⟨-, -, -, hinp, -⟩ := exec_next hu
  obtain ⟨hdrives, hlow⟩ := operationsDriveOnlyTheirPorts i s u hu
  exact ⟨u, hu, hinp, hlow, hdrives⟩

/-- Settles O5: the ten operations are the well-formed instructions, and a transaction's operation is one of them. -/
theorem everyTransactionCompletes : Obligations.EveryTransactionCompletes := by
  refine ⟨fun i s hi => exec_completes_driving s ?_, fun t s => ?_⟩
  · rcases hi with rfl | rfl | rfl | rfl | rfl | rfl | rfl | rfl | rfl | rfl <;> rfl
  · obtain ⟨u, hu, hinp, hlow, hdrives⟩ := exec_completes_driving (present t s) (transaction_instr_wf t)
    exact ⟨u, by rw [transact_eq, hu], hinp, hlow, rfl, hdrives⟩

/-! ## The invariant (R53, R57, R85, R94) -/

/-- A NaN that an operation puts on `r` is one that R53 allows. -/
theorem nanIsCanonical_of_exec {i : Instr} {s t : State} (h : exec i s = .next t) :
    nanIsCanonical i s.inp.a t.out.r = true := by
  obtain ⟨-, -, -, hcanonical⟩ := naNResultsAreCanonical
  cases hr : t.out.r with
  | undriven => rfl
  | driven v =>
    cases hnan : isNaN v with
    | false => simp [nanIsCanonical, hnan]
    | true =>
      obtain ⟨rfl, ha, rfl⟩ | ⟨rfl | rfl | rfl | rfl, rfl⟩ := hcanonical i s t v h hr hnan
      · simp [nanIsCanonical, ha]
      all_goals simp [nanIsCanonical]

@[simp] theorem expPortInRange_undriven (lo hi : Int) : expPortInRange lo hi .undriven = true := rfl

theorem expPortInRange_driven {lo hi : Int} {x : ExpPort} (hlo : lo ≤ x.toInt) (hhi : x.toInt ≤ hi) :
    expPortInRange lo hi (.driven x) = true := by
  simp [expPortInRange, hlo, hhi]

@[simp] theorem f2nOut_u_exp (v : Enc) (present : Bit) : (f2nOut v present).u_exp = .undriven := by
  unfold f2nOut; split_ifs <;> rfl

@[simp] theorem f2nOut_e_sh (v : Enc) (present : Bit) : (f2nOut v present).e_sh = .undriven := by
  unfold f2nOut; split_ifs <;> rfl

theorem u_exp_in_range {i : Instr} {p : InPorts} {o : OutPorts} (h : outputsOf i p = some o) :
    expPortInRange (-6) 8 o.u_exp = true := by
  cases i with
  | unpack =>
    obtain rfl := Option.some.inj h
    obtain ⟨hlo, hhi⟩ := unbiasedExp_range p.a
    rw [← expPort_unbiasedExp] at hlo hhi
    exact expPortInRange_driven hlo hhi
  | classify | align | reasm | neg | add | sub | mul | n2f | f2n =>
    obtain rfl := Option.some.inj h
    simp
  | reservedA | reservedB | reservedC | reservedD | reservedE | reservedF => cases h

/-- The shared exponent of any two operands, specials included (R93, R94). -/
theorem alignPair_e_range (a b : Enc) : -12 ≤ (alignPair a b).e ∧ (alignPair a b).e ≤ 8 := by
  obtain ⟨hlo, hhi, -⟩ := alignPair_spec a b
  have ha := unbiasedExp_range a
  have hb := unbiasedExp_range b
  omega

theorem e_sh_in_range {i : Instr} {p : InPorts} {o : OutPorts} (h : outputsOf i p = some o) :
    expPortInRange (-12) 8 o.e_sh = true := by
  cases i with
  | align =>
    obtain rfl := Option.some.inj h
    obtain ⟨hlo, hhi⟩ := alignPair_e_range p.a p.b
    rw [← expPort_alignPair] at hlo hhi
    exact expPortInRange_driven hlo hhi
  | classify | unpack | reasm | neg | add | sub | mul | n2f | f2n =>
    obtain rfl := Option.some.inj h
    simp [unpackOut]
  | reservedA | reservedB | reservedC | reservedD | reservedE | reservedF => cases h

/-- From any state, coherent or not, `exec` delivers outputs coherent as those of its instruction. -/
theorem outCoherent_of_exec {i : Instr} {s t : State} (h : exec i s = .next t) :
    outCoherent i s.inp t.out = true := by
  obtain ⟨hdrives, hlow⟩ := operationsDriveOnlyTheirPorts i s t h
  have hnan := nanIsCanonical_of_exec h
  obtain ⟨o, ho, -, -, hout⟩ := exec_next h
  have hu : expPortInRange (-6) 8 t.out.u_exp = true := by simpa [hout] using u_exp_in_range ho
  have he : expPortInRange (-12) 8 t.out.e_sh = true := by simpa [hout] using e_sh_in_range ho
  simp [outCoherent, hdrives, hnan, hu, he, hlow]

theorem step_delivers_coherent {s t : State} (h : step s = .next t) : t.coherent ∧ t.out ≠ .idle := by
  obtain ⟨o, -, hwf, hinp, hout⟩ := step_next h
  have hcoherent := outCoherent_of_exec h
  refine ⟨.inr ⟨?_, by rwa [hinp]⟩, fun hidle => ?_⟩
  · rwa [State.selectsOperation, hinp]
  · have hlow : t.out.op_illegal = .driven 0#1 := by rw [hout]
    simp [hidle] at hlow

/-- Settles O11: a step replaces every output, so what it delivers is coherent whatever was there before. -/
theorem stepKeepsOutputsCoherent : Obligations.StepKeepsOutputsCoherent :=
  ⟨fun _ _ _ h => (step_delivers_coherent h).1, fun _ _ => step_delivers_coherent⟩

end Sys2Proof.Proofs
end

section
/-!
PROOF. The left shift and the outputs of `ALIGN` (spec/41_bridge_align.md R82, R87, R92 to R94): their bounds, zero
and special operands, and the symmetry of the operation.
-/

namespace Sys2Proof.Proofs

open Sys2Proof.Machine Sys2Proof.Laws

/-! ## SHL1 (R82) -/

theorem shl1_w_getLsbD_0 (x : Split) : (shl1 x).w.getLsbD 0 = x.f.getLsbD 31 := by
  simp [shl1]

/-- The bit that `SHL1` drops is the top bit of the pair taken as one number. -/
theorem whole_top_bit_eq_false_iff (x : Split) : x.w.getLsbD 31 = false ↔ splitNum x < 2 ^ 63 := by
  have hf := x.f.isLt
  have hmsb : x.w.getLsbD 31 = decide (2 ^ 31 ≤ x.w.toNat) := BitVec.msb_eq_decide x.w
  rw [hmsb, decide_eq_false_iff_not, splitNum]
  omega

/-- The exponent goes down by 1, so the value is kept exactly when the pair is doubled without a carry out. -/
theorem splitVal_shl1_eq_iff (x : Split) : splitVal (shl1 x) = splitVal x ↔ splitNum (shl1 x) = 2 * splitNum x := by
  have hpow : (2 : ℚ) ^ x.e ≠ 0 := by positivity
  rw [splitVal_num, splitVal_num, shl1_e, zpow_sub_one₀ two_ne_zero, ← Nat.cast_inj (R := ℚ)]
  push_cast
  field_simp

/-- Settles O21: `SHL1` doubles the pair modulo `2^64`, and the carry out of that doubling is the dropped bit. -/
theorem leftShiftKeepsValueUnlessBitDropped : Obligations.LeftShiftKeepsValueUnlessBitDropped := by
  intro x
  refine ⟨shl1_e x, shl1_num x, shl1_w_getLsbD_0 x, ?_⟩
  rw [splitVal_shl1_eq_iff, shl1_num, whole_top_bit_eq_false_iff]
  omega

/-! ## Bounds of ALIGN (R93, R94) -/

/-- The mantissas of any two operands, specials included (R94). -/
theorem alignPair_mantissas_le (a b : Enc) :
    (alignPair a b).m1.toNat ≤ 127 * 2 ^ 14 ∧ (alignPair a b).m2.toNat ≤ 127 * 2 ^ 14 := by
  obtain ⟨-, -, hexact1, hexact2, -⟩ := alignPair_spec a b
  have hS := significand_lt a
  have hT := significand_lt b
  have ha := unbiasedExp_range a
  have hb := unbiasedExp_range b
  exact ⟨mantissa_le _ _ _ _ 14 hexact1 (by omega) (by omega), mantissa_le _ _ _ _ 14 hexact2 (by omega) (by omega)⟩

/-- Settles O26: the bounds for all operands, and `alignPair_bounds` for finite ones. -/
theorem alignOutputsBounded : Obligations.AlignOutputsBounded := by
  intro s
  obtain ⟨hlo, hhi⟩ := alignPair_e_range s.inp.a s.inp.b
  obtain ⟨hm1, hm2⟩ := alignPair_mantissas_le s.inp.a s.inp.b
  refine ⟨_, _, _, exec_align s, ?_⟩
  rw [expPort_alignPair]
  refine ⟨hlo, hhi, hm1, hm2, fun ha hb => ?_⟩
  obtain ⟨he, hf1, hf2, hprod⟩ := alignPair_bounds s.inp.a s.inp.b ha hb
  exact ⟨he, hf1, hf2, by omega, hprod⟩

/-! ## Zero and special operands (R92, R93) -/

theorem significand_eq_zero_iff (v : Enc) : significand v = 0 ↔ isZero v = true := by
  rw [← magnitude12_eq_zero, magnitude12, Nat.mul_eq_zero]
  simp

theorem significand_ne_zero {v : Enc} (h : isZero v = false) : significand v ≠ 0 := by
  rw [ne_eq, significand_eq_zero_iff, h]
  decide

/-- A mantissa that is exact at the weight of the lowest set bit is the odd part of the significand (R91). -/
theorem mantissa_at_lowestBitExp {m : Nat} {E : Int} {v : Enc} (hE : E = lowestBitExp v)
    (h : m * 2 ^ (E + 12).toNat = significand v * 2 ^ (unbiasedExp v + 6).toNat) :
    m = significand v >>> tz (significand v) := by
  have hexp : (E + 12).toNat = tz (significand v) + (unbiasedExp v + 6).toNat := by
    have := unbiasedExp_range v
    rw [hE, lowestBitExp, unitExp]
    omega
  rw [hexp, pow_add, ← mul_assoc] at h
  have hsig : m * 2 ^ tz (significand v) = significand v := Nat.eq_of_mul_eq_mul_right (by positivity) h
  rw [Nat.shiftRight_eq_div_pow]
  exact Nat.eq_div_of_mul_eq_left (by positivity) hsig

theorem alignPair_m1_of_zero {a b : Enc} (ha : isZero a = true) : (alignPair a b).m1 = 0#32 := by
  obtain ⟨-, -, hexact, -⟩ := alignPair_spec a b
  rw [(significand_eq_zero_iff a).2 ha, Nat.zero_mul] at hexact
  apply BitVec.eq_of_toNat_eq
  simpa using hexact

/-- A zero has no set bit to align, so the other operand's lowest set bit is at the shared exponent (R92). -/
theorem alignPair_beside_zero {a b : Enc} (ha : isZero a = true) (hb : isZero b = false) :
    (alignPair a b).m2.toNat = significand b >>> tz (significand b) ∧ (alignPair a b).e = lowestBitExp b := by
  have he : (alignPair a b).e = lowestBitExp b := by
    rw [alignPair_closed, closedAlignExp, if_pos ((significand_eq_zero_iff a).2 ha),
      if_neg (significand_ne_zero hb)]
  obtain ⟨-, -, -, hexact, -⟩ := alignPair_spec a b
  exact ⟨mantissa_at_lowestBitExp he hexact, he⟩

theorem alignPair_e_of_zeros {a b : Enc} (ha : isZero a = true) (hb : isZero b = true) : (alignPair a b).e = -6 := by
  rw [alignPair_closed, closedAlignExp, if_pos ((significand_eq_zero_iff a).2 ha),
    if_pos ((significand_eq_zero_iff b).2 hb), unbiasedExp_of_exp_zero ((isZero_iff a).1 ha).1,
    unbiasedExp_of_exp_zero ((isZero_iff b).1 hb).1, max_self]

/-- The magnitude that extraction gives a special: leading bit 1 and exponent 8 (R86, R93). -/
theorem abs_val_of_special {v : Enc} (h : isFinite v = false) :
    |val v| = (64 + ((fracField v).toNat : ℚ)) / 64 * 2 ^ 8 := by
  have h15 : expField v = 15#4 := by
    by_contra hne
    rw [(isFinite_iff v).2 hne] at h
    cases h
  have h0 : expField v ≠ 0#4 := by rw [h15]; decide
  rw [abs_val_eq_significand, significand, unitExp, leadBit_of_exp_ne_zero h0, unbiasedExp_of_exp_ne_zero h0, h15]
  norm_num
  ring

/-- Settles O28: each clause for the second operand is the clause for the first with the operands swapped. -/
theorem alignZeroAndSpecialOperands : Obligations.AlignZeroAndSpecialOperands := by
  intro s
  obtain ⟨hswap, hswap1, hswap2⟩ := alignPair_swap s.inp.a s.inp.b
  obtain ⟨hval1, hval2⟩ := alignPair_val s.inp.a s.inp.b
  refine ⟨_, _, _, exec_align s, ?_⟩
  rw [expPort_alignPair]
  refine ⟨alignPair_m1_of_zero, fun hb => ?_, alignPair_beside_zero, fun hb ha => ?_, alignPair_e_of_zeros,
    fun ha => hval1.trans (abs_val_of_special ha), fun hb => hval2.trans (abs_val_of_special hb)⟩
  · rw [← hswap1]
    exact alignPair_m1_of_zero hb
  · rw [← hswap2, ← hswap]
    exact alignPair_beside_zero hb ha

/-! ## Symmetry (R87) -/

/-- Settles O29, by the symmetry of `alignPair`. -/
theorem alignSwapsWithItsOperands : Obligations.AlignSwapsWithItsOperands := by
  intro a b s u h
  obtain ⟨he, hm1, hm2⟩ := alignPair_swap a b
  rw [transact_align] at h
  cases h
  exact ⟨_, transact_align b a s, congrArg Port.driven hm1, congrArg Port.driven hm2,
    congrArg (fun e => Port.driven (expPort e)) he⟩

end Sys2Proof.Proofs
end

section
/-!
PROOF. Every loop ends by its own condition (spec/41_bridge_align.md R95; spec/42_bridge_reassemble.md R110;
spec/43_converters.md R125, R126, R135; spec/70_reset_and_hazards.md R193), so that its fuel changes no result.
-/

namespace Sys2Proof.Proofs

open Sys2Proof.Machine Sys2Proof.Laws

/-! ## The two phases of ALIGN (R88, R89, R95) -/

theorem frac_eq_zero_of_dvd {x : Split} (h : 2 ^ 32 ∣ splitNum x) : x.f = 0#32 := by
  by_contra hne
  exact (fraction_ne_zero_iff x).1 (bne_iff_ne.2 hne) h

/-- Phase 1 ends at the larger of the two exponents, phase 2 with both fractions cleared. -/
theorem align_phases_end (a b : Enc) :
    let q := equalizeExponents (extract a, extract b)
    q.1.e = max (unbiasedExp a) (unbiasedExp b) ∧ q.2.e = q.1.e ∧ (clearFractions q).1.f = 0#32 ∧
      (clearFractions q).2.f = 0#32 ∧ (clearFractions q).2.e = (clearFractions q).1.e := by
  intro phase1
  have ha := unbiasedExp_range a
  have hb := unbiasedExp_range b
  obtain ⟨p, hp⟩ : ∃ p : Nat, unbiasedExp a = p - 6 := ⟨(unbiasedExp a + 6).toNat, by omega⟩
  obtain ⟨q, hq⟩ : ∃ q : Nat, unbiasedExp b = q - 6 := ⟨(unbiasedExp b + 6).toNat, by omega⟩
  obtain ⟨hphase1, -, -, k, -, hphase2, hnum1, hnum2, hwhole1, hwhole2, -⟩ := align_loops a b p q hp hq
  rw [show phase1 = _ from hphase1, hphase2]
  simp only [shl1_iter_e, shr1_iter_e, extract_e]
  exact ⟨by omega, by omega, frac_eq_zero_of_dvd (hnum1 ▸ hwhole1), frac_eq_zero_of_dvd (hnum2 ▸ hwhole2), by omega⟩

/-! ## The restarts (R104, R110, R126) -/

theorem denormalizeRight_e {x : Split} (hlo : -128 ≤ x.e) (hhi : x.e ≤ -6) : (denormalizeRight x).e = -6 := by
  rw [denormalizeRight_eq x (-6 - x.e).toNat (by omega) (by omega), shr1_iter_e]
  omega

theorem denormalizeLeft_e {x : Split} (h : x.e = 0) : (denormalizeLeft x).e = -6 := by
  rw [denormalizeLeft_eq x h, shl1_iter_e, h]
  rfl

/-! ## The normalizations of N2F (R125) -/

/-- A number whose whole part is already 1 is left as it is. -/
theorem normalizeLeft_of_whole_one {x : Split} (h : x.w = 1#32) : normalizeLeft x = x :=
  whileLoop_of_false _ (by rw [h]; rfl)

/-- A fraction with its leading bit at position `p` takes the `32 - p` shifts that bring that bit to the whole part. -/
theorem normalizeLeft_whole {x : Split} (hw : x.w = 0#32) (hf : x.f ≠ 0#32) : (normalizeLeft x).w = 1#32 := by
  have hnum : splitNum x = x.f.toNat := by rw [splitNum, hw]; simp
  obtain ⟨hlo, hhi⟩ := leading_bit x.f.toNat (toNat_ne_zero hf)
  generalize Nat.log2 x.f.toNat = p at hlo hhi
  have hp : p < 32 := (Nat.pow_lt_pow_iff_right (by omega)).1 (hlo.trans_lt x.f.isLt)
  have hlo' : 2 ^ 32 ≤ splitNum x * 2 ^ (32 - p) := by
    calc 2 ^ 32 = 2 ^ p * 2 ^ (32 - p) := by rw [← pow_add]; congr 1; omega
      _ ≤ splitNum x * 2 ^ (32 - p) := Nat.mul_le_mul_right _ (hnum ▸ hlo)
  have hhi' : splitNum x * 2 ^ (32 - p) < 2 ^ 33 := by
    calc splitNum x * 2 ^ (32 - p) < 2 ^ (p + 1) * 2 ^ (32 - p) :=
          Nat.mul_lt_mul_of_pos_right (hnum ▸ hhi) (by positivity)
      _ = 2 ^ 33 := by rw [← pow_add]; congr 1; omega
  rw [normalizeLeft_eq x (32 - p) (by omega) hlo' hhi']
  rw [← shl1_iter_num _ _ (by omega)] at hlo' hhi'
  exact whole_one_of_num _ hlo' hhi'

/-- A non-zero whole part is shifted right, a zero one leaves the fraction to be shifted left. -/
theorem normalize_whole {whole frac : Acc} (hz : ¬ (whole = 0#32 ∧ frac = 0#32)) (x : Int) :
    (normalizeLeft (normalizeRight { w := whole, f := frac, e := x })).w = 1#32 := by
  by_cases hw : whole = 0#32
  · rw [normalizeRight_of_le _ (by simp [hw])]
    exact normalizeLeft_whole hw fun hf => hz ⟨hw, hf⟩
  · have hone := normalizeRight_whole whole frac x hw
    rw [normalizeLeft_of_whole_one hone, hone]

/-- Settles O30, loop by loop. -/
theorem everyLoopEndsByItsCondition : Obligations.EveryLoopEndsByItsCondition := by
  refine ⟨align_phases_end, fun m x => normalizeRight_whole m 0#32 x, fun m x hlo hhi => denormalizeRight_e hlo hhi,
    fun whole frac _ hz => normalize_whole hz 0, fun whole frac => denormalizeLeft_e rfl, fun v hv => ?_⟩
  obtain ⟨he, -⟩ := shiftToUnits_extract v hv
  exact he

end Sys2Proof.Proofs
end

section
/-!
PROOF. The struct after `F2N` and the host's commit (spec/43_converters.md R138; spec/92_eei_decisions.md D12): each
path writes the fields it enables and leaves the others.
-/

namespace Sys2Proof.Proofs

open Sys2Proof.Machine Sys2Proof.Laws

section Commit

variable (v : Enc) (s : State)

/-- A failure enables no write (R131). -/
theorem commitStruct_f2nAbsent : (commitStruct (delivered s f2nAbsent)).inp = s.inp := rfl

/-- An Infinity writes the sign and its own flag (R133). -/
theorem commitStruct_f2nInf :
    (commitStruct (delivered s (f2nInf v))).inp = { s.inp with num_neg := signField v, num_inf := 1#1 } := rfl

/-- A NaN writes the sign and its own flag (R134). -/
theorem commitStruct_f2nNan :
    (commitStruct (delivered s (f2nNan v))).inp = { s.inp with num_neg := signField v, num_nan := 1#1 } := rfl

end Commit

/-- Settles O41, path by path: what the host commits is what the path enables. -/
theorem f2nKeepsUnwrittenStructFields : Obligations.F2nKeepsUnwrittenStructFields := by
  intro s t h
  rw [exec_f2n] at h
  cases h
  refine ⟨fun hp => ?_, fun hp hfin => ?_, fun hp hinf => ?_, fun hp hnan => ?_⟩
  · rw [hp, f2nOut_of_absent, commitStruct_f2nAbsent]
  · rw [hp, f2nOut_of_finite hfin]
    exact ⟨rfl, rfl, rfl, rfl⟩
  · rw [hp, f2nOut_of_infinity hinf, commitStruct_f2nInf]
    exact ⟨rfl, rfl, rfl, rfl, rfl⟩
  · rw [hp, f2nOut_of_nan hnan, commitStruct_f2nNan]
    exact ⟨rfl, rfl, rfl, rfl, rfl⟩

end Sys2Proof.Proofs
end
